-- ==== Sys2Proof/Word.lean ====
section
/-! DEFINITION. The widths of the machine: bytes, 16-bit words, register numbers (00_scope.md R6, R8–R10). -/

namespace Sys2Proof

/-- An 8-bit value: a general register, a timer, a memory byte (R6 `V_WIDTH`, `TIMER_WIDTH`). -/
abbrev Byte := BitVec 8

/-- A 16-bit value: `pc`, `I`, a stack entry, an instruction word (R6 `PC_WIDTH`, `I_WIDTH`, `WORD_WIDTH`). -/
abbrev Word := BitVec 16

/-- The number of a general register, 0..15 (R6 `NUM_V`, R10). -/
abbrev Reg := Fin 16

/-- The sixteen registers in ascending order, the order of the spec's loops (R14). -/
abbrev allRegs : List Reg := [0, 1, 2, 3, 4, 5, 6, 7, 8, 9, 10, 11, 12, 13, 14, 15]

/-- `VF` is `V[0xF]`, the flag register (R10, R25). -/
abbrev regF : Reg := 15

end Sys2Proof
end

