-- ==== Sys2Proof/Machine/Flags.lean ====
section
/-! DEFINITION. Every flag value the spec writes to VF (10_state.md R25, 42_register_alu.md R126–R130,
44_display.md R152). Booleans enter a register as 1 and 0 (R9). -/

namespace Sys2Proof.Machine

/-- `c ? 1 : 0` (R9). -/
def flag (c : Bool) : Byte := if c then 1 else 0

/-- AddReg's carry: the unbounded sum exceeds 0xFF (R126). -/
def carryFlag (a b : Byte) : Byte := flag (decide (a.toNat + b.toNat > 0xFF))

/-- `borrow ? 0 : 1` of the subtraction `a - b` (R127, R129). -/
def notBorrowFlag (a b : Byte) : Byte := flag (!decide (a.toNat < b.toNat))

/-- ShiftRight's flag `V[x] AND 1` (R128). -/
def lowBitFlag (a : Byte) : Byte := a &&& 1

/-- ShiftLeft's flag `(V[x] >> 7) AND 1` (R130). -/
def highBitFlag (a : Byte) : Byte := (a >>> 7) &&& 1

/-- DrawSprite's flag `collided ? 1 : 0` (R152). -/
def collisionFlag (collided : Bool) : Byte := flag collided

end Sys2Proof.Machine
end

