-- ==== Sys2Proof/Syntax.lean ====
section
/-! DEFINITION. The closed, tagged instruction type: one constructor per row of spec/opcode_table.json
(30_encoding.md R69, R70), in the table's order. -/

namespace Sys2Proof

/-- An operation with its decoded fields (R66, R68): `x`, `y` register numbers, `kk` the immediate byte,
`nnn` the 12-bit address, `n` the row count. -/
inductive Instr where
  /-- `0000` (R100) -/
  | nop
  /-- `00E0` (R151) -/
  | clearScreen
  /-- `00EE`, Return (R101) -/
  | ret
  /-- `1nnn` (R102) -/
  | jump (nnn : BitVec 12)
  /-- `2nnn` (R103) -/
  | call (nnn : BitVec 12)
  /-- `3xkk` (R104) -/
  | skipIfValEQ (x : Reg) (kk : Byte)
  /-- `4xkk` (R105) -/
  | skipIfValNE (x : Reg) (kk : Byte)
  /-- `5xy0` (R106) -/
  | skipIfRegEQ (x y : Reg)
  /-- `6xkk` (R120) -/
  | setToVal (x : Reg) (kk : Byte)
  /-- `7xkk` (R121) -/
  | addVal (x : Reg) (kk : Byte)
  /-- `8xy0` (R122) -/
  | setToReg (x y : Reg)
  /-- `8xy1` (R123) -/
  | bitwiseOr (x y : Reg)
  /-- `8xy2` (R124) -/
  | bitwiseAnd (x y : Reg)
  /-- `8xy3` (R125) -/
  | bitwiseXor (x y : Reg)
  /-- `8xy4` (R126) -/
  | addReg (x y : Reg)
  /-- `8xy5` (R127) -/
  | subReg (x y : Reg)
  /-- `8xy6` (R128); `y` is kept for re-encoding and has no effect (R74) -/
  | shiftRight (x y : Reg)
  /-- `8xy7` (R129) -/
  | subFromReg (x y : Reg)
  /-- `8xyE` (R130); `y` is kept for re-encoding and has no effect (R74) -/
  | shiftLeft (x y : Reg)
  /-- `9xy0` (R107) -/
  | skipIfRegNE (x y : Reg)
  /-- `Annn` (R140) -/
  | setIndex (nnn : BitVec 12)
  /-- `Bnnn` (R108) -/
  | jumpV0Distance (nnn : BitVec 12)
  /-- `Cxkk` (R131) -/
  | rand (x : Reg) (kk : Byte)
  /-- `Dxyn` (R152); `n` is a count, 0..15 in a well-formed term -/
  | drawSprite (x y : Reg) (n : Nat)
  /-- `Ex9E` (R161) -/
  | skipIfKeyPressed (x : Reg)
  /-- `ExA1` (R162) -/
  | skipIfKeyNotPressed (x : Reg)
  /-- `Fx07` (R163) -/
  | getDelayTimer (x : Reg)
  /-- `Fx0A` (R164) -/
  | waitKey (x : Reg)
  /-- `Fx15` (R165) -/
  | setDelayTimer (x : Reg)
  /-- `Fx18` (R166) -/
  | setSoundTimer (x : Reg)
  /-- `Fx1E` (R141) -/
  | incrementI (x : Reg)
  /-- `Fx29` (R142) -/
  | loadFontChar (x : Reg)
  /-- `Fx33` (R143) -/
  | bcd (x : Reg)
  /-- `Fx55` (R144) -/
  | loadIntoRam (x : Reg)
  /-- `Fx65` (R145) -/
  | loadFromRam (x : Reg)
  deriving DecidableEq, Repr

end Sys2Proof
end

