-- ==== Sys2Proof/WellFormed.lean ====
section
/-! DEFINITION. Which terms of `Instr` are instructions of the hardware (30_encoding.md R66, R68).
Register numbers, `kk` and `nnn` carry their range in their types; the one operand whose type is wider
than its field is DrawSprite's row count. -/

namespace Sys2Proof

/-- The row count fits its 4-bit field: "`n` is an unsigned count 0..15" (R68). -/
def rowCountOk (n : Nat) : Bool := n < 16

/-- A well-formed instruction: every operand has a value its field can hold. -/
def Instr.wf : Instr → Bool
  | .drawSprite _ _ n => rowCountOk n
  | .nop | .clearScreen | .ret => true
  | .jump _ | .call _ | .setIndex _ | .jumpV0Distance _ => true
  | .skipIfValEQ _ _ | .skipIfValNE _ _ | .setToVal _ _ | .addVal _ _ | .rand _ _ => true
  | .skipIfRegEQ _ _ | .skipIfRegNE _ _ => true
  | .setToReg _ _ | .bitwiseOr _ _ | .bitwiseAnd _ _ | .bitwiseXor _ _ => true
  | .addReg _ _ | .subReg _ _ | .shiftRight _ _ | .subFromReg _ _ | .shiftLeft _ _ => true
  | .skipIfKeyPressed _ | .skipIfKeyNotPressed _ | .getDelayTimer _ | .waitKey _ => true
  | .setDelayTimer _ | .setSoundTimer _ | .incrementI _ | .loadFontChar _ => true
  | .bcd _ | .loadIntoRam _ | .loadFromRam _ => true

end Sys2Proof
end

