-- ==== Sys2Proof/Decode.lean ====
section
/-! DEFINITION. The opcode decoder and the encoder (30_encoding.md R65–R77). The decoder is the spec's own
table of (match, mask) pairs (R70); it reads no state (R69) and rejects every other word by name (R75). -/

namespace Sys2Proof

/-- Why the decoder refuses. -/
inductive Reject where
  /-- `Invalid(w)` of R69: a word that matches no row of R70 (R75). -/
  | invalid (w : Word)
  /-- Fewer than the two bytes that every instruction has (R65). -/
  | tooShort
  deriving DecidableEq, Repr

/-- `w[hi:lo]`, the unsigned value of bits hi down to lo (R8). -/
def bits (w : Word) (hi lo : Nat) : Nat := w.toNat / 2 ^ lo % 2 ^ (hi + 1 - lo)

/-- `x = n1 = w[11:8]` (R66). -/
def fieldX (w : Word) : Reg := ⟨bits w 11 8, Nat.mod_lt _ (by decide)⟩

/-- `y = n2 = w[7:4]` (R66). -/
def fieldY (w : Word) : Reg := ⟨bits w 7 4, Nat.mod_lt _ (by decide)⟩

/-- `n = n3 = w[3:0]` (R66). -/
def fieldN (w : Word) : Nat := bits w 3 0

/-- `kk = w[7:0]` (R66). -/
def fieldKK (w : Word) : Byte := BitVec.ofNat 8 (bits w 7 0)

/-- `nnn = w[11:0]` (R66). -/
def fieldNNN (w : Word) : BitVec 12 := BitVec.ofNat 12 (bits w 11 0)

/-- One row of R70: the operation is selected when `w & mask = pattern` (the spec's `match`). -/
structure Row where
  pattern : Word
  mask : Word
  build : Word → Instr

/-- R70: "A word selects an operation when `w & mask = match`." -/
def Row.selects (r : Row) (w : Word) : Bool := w &&& r.mask == r.pattern

/-- Rows 1–10 of R70. -/
def rowsControl : List Row :=
  [⟨0x0000, 0xFFFF, fun _ => .nop⟩,
   ⟨0x00E0, 0xFFFF, fun _ => .clearScreen⟩,
   ⟨0x00EE, 0xFFFF, fun _ => .ret⟩,
   ⟨0x1000, 0xF000, fun w => .jump (fieldNNN w)⟩,
   ⟨0x2000, 0xF000, fun w => .call (fieldNNN w)⟩,
   ⟨0x3000, 0xF000, fun w => .skipIfValEQ (fieldX w) (fieldKK w)⟩,
   ⟨0x4000, 0xF000, fun w => .skipIfValNE (fieldX w) (fieldKK w)⟩,
   ⟨0x5000, 0xF00F, fun w => .skipIfRegEQ (fieldX w) (fieldY w)⟩,
   ⟨0x6000, 0xF000, fun w => .setToVal (fieldX w) (fieldKK w)⟩,
   ⟨0x7000, 0xF000, fun w => .addVal (fieldX w) (fieldKK w)⟩]

/-- Rows 11–19 of R70, the eight-group; the pairing of names and minor nibbles is R71 (D19, log 16). -/
def rowsEight : List Row :=
  [⟨0x8000, 0xF00F, fun w => .setToReg (fieldX w) (fieldY w)⟩,
   ⟨0x8001, 0xF00F, fun w => .bitwiseOr (fieldX w) (fieldY w)⟩,
   ⟨0x8002, 0xF00F, fun w => .bitwiseAnd (fieldX w) (fieldY w)⟩,
   ⟨0x8003, 0xF00F, fun w => .bitwiseXor (fieldX w) (fieldY w)⟩,
   ⟨0x8004, 0xF00F, fun w => .addReg (fieldX w) (fieldY w)⟩,
   ⟨0x8005, 0xF00F, fun w => .subReg (fieldX w) (fieldY w)⟩,
   ⟨0x8006, 0xF00F, fun w => .shiftRight (fieldX w) (fieldY w)⟩,
   ⟨0x8007, 0xF00F, fun w => .subFromReg (fieldX w) (fieldY w)⟩,
   ⟨0x800E, 0xF00F, fun w => .shiftLeft (fieldX w) (fieldY w)⟩]

/-- Rows 20–26 of R70. -/
def rowsMiddle : List Row :=
  [⟨0x9000, 0xF00F, fun w => .skipIfRegNE (fieldX w) (fieldY w)⟩,
   ⟨0xA000, 0xF000, fun w => .setIndex (fieldNNN w)⟩,
   ⟨0xB000, 0xF000, fun w => .jumpV0Distance (fieldNNN w)⟩,
   ⟨0xC000, 0xF000, fun w => .rand (fieldX w) (fieldKK w)⟩,
   ⟨0xD000, 0xF000, fun w => .drawSprite (fieldX w) (fieldY w) (fieldN w)⟩,
   ⟨0xE09E, 0xF0FF, fun w => .skipIfKeyPressed (fieldX w)⟩,
   ⟨0xE0A1, 0xF0FF, fun w => .skipIfKeyNotPressed (fieldX w)⟩]

/-- Rows 27–35 of R70, the F-group; the pairing of names and bytes is R72 (D20, log 16). -/
def rowsF : List Row :=
  [⟨0xF007, 0xF0FF, fun w => .getDelayTimer (fieldX w)⟩,
   ⟨0xF00A, 0xF0FF, fun w => .waitKey (fieldX w)⟩,
   ⟨0xF015, 0xF0FF, fun w => .setDelayTimer (fieldX w)⟩,
   ⟨0xF018, 0xF0FF, fun w => .setSoundTimer (fieldX w)⟩,
   ⟨0xF01E, 0xF0FF, fun w => .incrementI (fieldX w)⟩,
   ⟨0xF029, 0xF0FF, fun w => .loadFontChar (fieldX w)⟩,
   ⟨0xF033, 0xF0FF, fun w => .bcd (fieldX w)⟩,
   ⟨0xF055, 0xF0FF, fun w => .loadIntoRam (fieldX w)⟩,
   ⟨0xF065, 0xF0FF, fun w => .loadFromRam (fieldX w)⟩]

/-- The decode table R70, whole, in the spec's order. -/
def decodeTable : List Row := rowsControl ++ rowsEight ++ rowsMiddle ++ rowsF

/-- `decode(w)` (R69): the first row that selects `w` (R73: at most one does), else `Invalid(w)` (R75). -/
def decode (w : Word) : Except Reject Instr :=
  match decodeTable.find? (fun r => r.selects w) with
  | some r => .ok (r.build w)
  | none => .error (.invalid w)

/-- The big-endian combination of R50: the byte at the lower address is bits 15..8 (R51). -/
def wordOfBytes (hi lo : Byte) : Word := BitVec.ofNat 16 (hi.toNat * 256 + lo.toNat)

/-- The byte of `w` that lies at the lower address (R51). -/
def highByte (w : Word) : Byte := BitVec.ofNat 8 (bits w 15 8)

/-- The byte of `w` that lies at the higher address (R51). -/
def lowByte (w : Word) : Byte := BitVec.ofNat 8 (bits w 7 0)

/-- Decoding a byte stream: an instruction is its first two bytes (R65), the rest is handed back. -/
def decodeBytes : List Byte → Except Reject (Instr × List Byte)
  | hi :: lo :: rest => (decode (wordOfBytes hi lo)).map (fun i => (i, rest))
  | _ => .error .tooShort

/-- The instruction the decoder reads from table word `w` (one 16-bit word, stored big-endian). -/
def decodeTableWord (nbits w : Nat) : Option Instr :=
  let word : Word := BitVec.ofNat 16 (w % 2 ^ nbits)
  match decodeBytes [highByte word, lowByte word] with
  | .ok (i, _) => some i
  | .error _ => none

/-- Format NNN of R67: `oooo nnnn nnnn nnnn`. -/
def wordNNN (op : Nat) (nnn : BitVec 12) : Word := BitVec.ofNat 16 (op * 4096 + nnn.toNat)

/-- Format XKK of R67: `oooo xxxx kkkk kkkk`. -/
def wordXKK (op : Nat) (x : Reg) (kk : Byte) : Word :=
  BitVec.ofNat 16 (op * 4096 + x.val * 256 + kk.toNat)

/-- Formats XYO and XYN of R67: `oooo xxxx yyyy oooo`, `oooo xxxx yyyy nnnn`. -/
def wordXYN (op : Nat) (x y : Reg) (n : Nat) : Word :=
  BitVec.ofNat 16 (op * 4096 + x.val * 256 + y.val * 16 + n)

/-- Format XOO of R67: `oooo xxxx oooo oooo`. -/
def wordXOO (op : Nat) (x : Reg) (low : Nat) : Word :=
  BitVec.ofNat 16 (op * 4096 + x.val * 256 + low)

/-- The word of a well-formed instruction, from the patterns of R70 and R78's "encodes to" column. -/
def encode : Instr → Word
  | .nop => 0x0000
  | .clearScreen => 0x00E0
  | .ret => 0x00EE
  | .jump nnn => wordNNN 0x1 nnn
  | .call nnn => wordNNN 0x2 nnn
  | .skipIfValEQ x kk => wordXKK 0x3 x kk
  | .skipIfValNE x kk => wordXKK 0x4 x kk
  | .skipIfRegEQ x y => wordXYN 0x5 x y 0x0
  | .setToVal x kk => wordXKK 0x6 x kk
  | .addVal x kk => wordXKK 0x7 x kk
  | .setToReg x y => wordXYN 0x8 x y 0x0
  | .bitwiseOr x y => wordXYN 0x8 x y 0x1
  | .bitwiseAnd x y => wordXYN 0x8 x y 0x2
  | .bitwiseXor x y => wordXYN 0x8 x y 0x3
  | .addReg x y => wordXYN 0x8 x y 0x4
  | .subReg x y => wordXYN 0x8 x y 0x5
  | .shiftRight x y => wordXYN 0x8 x y 0x6
  | .subFromReg x y => wordXYN 0x8 x y 0x7
  | .shiftLeft x y => wordXYN 0x8 x y 0xE
  | .skipIfRegNE x y => wordXYN 0x9 x y 0x0
  | .setIndex nnn => wordNNN 0xA nnn
  | .jumpV0Distance nnn => wordNNN 0xB nnn
  | .rand x kk => wordXKK 0xC x kk
  | .drawSprite x y n => wordXYN 0xD x y n
  | .skipIfKeyPressed x => wordXOO 0xE x 0x9E
  | .skipIfKeyNotPressed x => wordXOO 0xE x 0xA1
  | .getDelayTimer x => wordXOO 0xF x 0x07
  | .waitKey x => wordXOO 0xF x 0x0A
  | .setDelayTimer x => wordXOO 0xF x 0x15
  | .setSoundTimer x => wordXOO 0xF x 0x18
  | .incrementI x => wordXOO 0xF x 0x1E
  | .loadFontChar x => wordXOO 0xF x 0x29
  | .bcd x => wordXOO 0xF x 0x33
  | .loadIntoRam x => wordXOO 0xF x 0x55
  | .loadFromRam x => wordXOO 0xF x 0x65

/-- The two bytes of an instruction, in the order memory holds them (R51). -/
def encodeBytes (i : Instr) : List Byte := [highByte (encode i), lowByte (encode i)]

end Sys2Proof
end

