-- ==== Sys2Proof/Config.lean ====
section
/-! DEFINITION. The fixed parameters of R6 and the two open parameters of R7 that one machine needs as
constants: the font table and the random bytes. The third, the schedule, is data in State (`calls`). -/

namespace Sys2Proof.Config

/-- R6 `MEM_SIZE`. -/
abbrev memSize : Nat := 4096

/-- R6 `START_ADDR`: the reset `pc` and the ROM load address. -/
abbrev startAddr : Nat := 0x200

/-- R6 `FONT_START`. -/
abbrev fontStart : Nat := 0x000

/-- R6 `FONT_GLYPHS` × `GLYPH_BYTES`: the font table has 80 bytes. -/
abbrev fontBytes : Nat := 80

/-- R6 `GLYPH_BYTES`. -/
abbrev glyphBytes : Nat := 5

/-- R6 `STACK_DEPTH`. -/
abbrev stackDepth : Nat := 16

/-- R6 `DISPLAY_W`. -/
abbrev displayW : Nat := 64

/-- R6 `DISPLAY_H`. -/
abbrev displayH : Nat := 32

/-- `FONT_TABLE` of R7, OPEN (92_eei_decisions.md D13): byte `k` of the built-in glyph table, `k < 80`.
The spec gives no values, so the constant has no body and no proof can see one (log 5). -/
opaque fontByte : Nat → Byte

/-- `RandByte` of R193, a draw under no law (D9): the random byte of the `k`-th TICK whose byte the
host's call list does not give. No body: every claim holds for every byte (log 4). -/
opaque randByte : Nat → Byte

end Sys2Proof.Config
end

