-- ==== Sys2Proof/Machine/State.lean ====
section
/-! DEFINITION. The machine state as plain data (10_state.md R20), the reasons a step can stop, and the
state after reset (R41). -/

namespace Sys2Proof.Machine

/-- The 64 × 32 framebuffer, row-major (R37, R150): 32 rows of 64 pixels. `fb[64*y + x]` of the spec is
pixel `x` of row `y`. `true` is a lit pixel. -/
abbrev Framebuffer := Vector (Vector Bool 64) 32

/-- Every pixel false. -/
abbrev blankScreen : Framebuffer := Vector.replicate 32 (Vector.replicate 64 false)

/-- What the fault latch holds: one constructor per fault of 60_exceptions.md R170, with its info. -/
inductive LatchedFault where
  /-- code 1: TICK step 3 met an invalid word (R89, R171) -/
  | decodeError (word : Word)
  /-- code 2: a fetch past the end of memory, or a data byte above 0xFFF (R172) -/
  | addressOutOfRange (address : Nat)
  /-- code 3: Call with a full stack (R173) -/
  | stackOverflow (sp : Nat)
  /-- code 4: Return with an empty stack (R174); no info -/
  | stackUnderflow
  /-- code 5: LOAD_ROM of too many bytes (R175) -/
  | romTooLarge (len : Nat)
  /-- code 6: KeyRead of an index above 0xF (R177) -/
  | keyIndexOutOfRange (key : Byte)
  deriving DecidableEq, Repr

/-- The host's six transactions (R191). -/
inductive HostCall where
  /-- RESET (R200) -/
  | reset
  /-- LOAD_ROM(bytes) (R202) -/
  | loadRom (bytes : List Byte)
  /-- KEY(index, pressed); "index (any integer)" (R188, R191) -/
  | key (index : Int) (pressed : Bool)
  /-- TICK with its random byte input (R95, R193) -/
  | tick (rand : Byte)
  /-- TICK_TIMERS (R184) -/
  | tickTimers
  /-- FB_READ (R189) -/
  | fbRead
  deriving DecidableEq, Repr

/-- What a transaction returns to the host (R191, column "block returns"). -/
inductive Reply where
  /-- RESET and KEY have no result (R188, R200) -/
  | noResult
  /-- TICK or LOAD_ROM without a fault (R91, R202) -/
  | ok
  /-- `fault(code, info)` (R176) -/
  | faulted (f : LatchedFault)
  /-- the boolean of TICK_TIMERS (R184) -/
  | playTone (on : Bool)
  /-- the 2048 booleans of FB_READ in index order (R189) -/
  | pixels (p : List Bool)
  deriving DecidableEq, Repr

/-- The state of the block (R20), then four fields of the model's own: the host's pending calls, the
random byte of the TICK in progress, the counter of free bytes, and the last result handed to the host. -/
structure State where
  /-- program counter (R21) -/
  pc : Word
  /-- general registers V0..VF (R24, R25) -/
  V : Vector Byte 16
  /-- index register (R27) -/
  I : Word
  /-- return addresses (R29) -/
  stack : Vector Word 16
  /-- number of entries on the stack, 0..16 (R30) -/
  sp : Fin 17
  /-- press state of the 16 keys (R36) -/
  keys : Vector Bool 16
  /-- delay timer (R34) -/
  DT : Byte
  /-- sound timer (R35) -/
  ST : Byte
  /-- framebuffer (R37) -/
  fb : Framebuffer
  /-- memory (R45): the cells that differ from the reset contents, addresses strictly rising -/
  mem : List Host.Cell
  /-- fault latch (R38) -/
  fault : Option LatchedFault
  /-- MODEL'S OWN (log 3): the host transactions still to come, oldest first; when none is listed the
  host's next transaction is a TICK -/
  calls : List HostCall
  /-- MODEL'S OWN (log 4): the random byte input of the TICK in progress (R193) -/
  rand : Byte
  /-- MODEL'S OWN (log 4): which free random byte is drawn next -/
  draws : Nat
  /-- MODEL'S OWN (log 6): the result of the last transaction -/
  reply : Reply
  deriving DecidableEq, Repr

/-- The reasons a step stops. -/
inductive Fault where
  /-- Raised by `tick` when the fault latch is set: "While it is set, TICK has no step" (R38, R85, R181).
  The machine is stuck until RESET. Safe: the spec gives a continuation no meaning (D7, log 2). -/
  | tickNotAdmitted
  deriving DecidableEq, Repr

/-- The reasons a step is refused. -/
inductive Refusal where
  /-- Raised by `exec` for an instruction without a meaning; no arm does so in this model. Safe: the run stops. -/
  | notModelled (mnemonic : String)
  deriving DecidableEq, Repr

/-- The outcome of a step, an instruction or a transaction. -/
abbrev Result := Host.Outcome State Fault Refusal

/-- The machine after RESET (R41, R200): everything zero, false or none, `pc` at 0x200, the font in place
(no cell is listed: an unlisted address reads as the reset contents). The last four fields are the
model's own, their values DESIGN CHOICES (log 3, 4, 6). -/
def State.reset : State where
  pc := 0x200
  V := Vector.replicate 16 0
  I := 0
  stack := Vector.replicate 16 0
  sp := 0
  keys := Vector.replicate 16 false
  DT := 0
  ST := 0
  fb := blankScreen
  mem := []
  fault := none
  calls := []
  rand := 0
  draws := 0
  reply := .noResult

end Sys2Proof.Machine
end

