-- ==== Sys2Proof/Machine/Ops.lean ====
section
/-! DEFINITION. The named operations over registers, memory, stack, keys and framebuffer, raising a fault,
and the fetch: the primitives of 00_scope.md R13 with their own rules. -/

namespace Sys2Proof.Machine

/-! ### Memory (20_memory.md) -/

/-- What an address with no listed cell reads as: the contents after RESET (R41, R46), `FONT_TABLE` at
0x000–0x04F (D13, log 5) and 0x00 above. -/
def Memory.unlisted (a : Nat) : Byte :=
  if a < Config.fontBytes then Config.fontByte a else 0

/-- The byte at address `a`: the latest one written, else the reset contents (R59). -/
def Memory.read : List Host.Cell → Nat → Byte
  | [], a => Memory.unlisted a
  | (b, v) :: m, a => if b = a then v else Memory.read m a

/-- Store `v` at `a`, keeping the canonical form: cells by rising address, none equal to the reset contents. -/
def Memory.write : List Host.Cell → Nat → Byte → List Host.Cell
  | [], a, v => if v = Memory.unlisted a then [] else [(a, v)]
  | (b, u) :: m, a, v =>
    if b < a then (b, u) :: Memory.write m a v
    else if b = a then (if v = Memory.unlisted a then m else (a, v) :: m)
    else if v = Memory.unlisted a then (b, u) :: m else (a, v) :: (b, u) :: m

/-- Store consecutive bytes from address `a` on. -/
def Memory.writeAll (m : List Host.Cell) (a : Nat) : List Byte → List Host.Cell
  | [] => m
  | v :: vs => Memory.writeAll (Memory.write m a v) (a + 1) vs

/-- The canonical form: addresses strictly rising and inside the 4096 bytes (R45), no cell equal to what
its address reads as unlisted. -/
abbrev Memory.wf (m : List Host.Cell) : Prop :=
  m.Pairwise (fun c d => c.1 < d.1) ∧ ∀ c ∈ m, c.1 < Config.memSize ∧ c.2 ≠ Memory.unlisted c.1

/-! ### Register accessors -/

namespace State

/-- `V[r]` (R10). -/
def reg (s : State) (r : Reg) : Byte := s.V[r]

/-- `stack[j]` (R29). -/
def stackAt (s : State) (j : Fin 16) : Word := s.stack[j]

/-- `keys[k]` (R36). -/
def keyAt (s : State) (k : Fin 16) : Bool := s.keys[k]

/-- Pixel `(col, row)`, the spec's `fb[64*row + col]` (R37). -/
def pixel (s : State) (col : Fin 64) (row : Fin 32) : Bool := s.fb[row][col]

/-- `mem[a]`. -/
def byteAt (s : State) (a : Nat) : Byte := Memory.read s.mem a

/-- `pc <- target` (R22). -/
def writePc (s : State) (target : Word) : State := { s with pc := target }

/-- `V[r] <- v` (R10). -/
def writeV (s : State) (r : Reg) (v : Byte) : State := { s with V := s.V.set r v }

/-- `VF <- v` (R25). -/
def writeVF (s : State) (v : Byte) : State := s.writeV regF v

/-- `I <- v`. -/
def writeI (s : State) (v : Word) : State := { s with I := v }

/-- `stack[j] <- v`. -/
def writeStack (s : State) (j : Fin 16) (v : Word) : State := { s with stack := s.stack.set j v }

/-- `sp <- n`. -/
def writeSp (s : State) (n : Fin 17) : State := { s with sp := n }

/-- `keys[k] <- pressed`. -/
def writeKey (s : State) (k : Fin 16) (pressed : Bool) : State := { s with keys := s.keys.set k pressed }

/-- `DT <- v`. -/
def writeDT (s : State) (v : Byte) : State := { s with DT := v }

/-- `ST <- v`. -/
def writeST (s : State) (v : Byte) : State := { s with ST := v }

/-- The whole framebuffer. -/
def writeFb (s : State) (fb : Framebuffer) : State := { s with fb := fb }

/-- The whole memory. -/
def writeMem (s : State) (m : List Host.Cell) : State := { s with mem := m }

/-- The fault latch (R38). -/
def writeFault (s : State) (f : Option LatchedFault) : State := { s with fault := f }

/-- The host's pending calls (log 3). -/
def writeCalls (s : State) (cs : List HostCall) : State := { s with calls := cs }

/-- The random byte of this TICK (R193). -/
def writeRand (s : State) (b : Byte) : State := { s with rand := b }

/-- The counter of free bytes (log 4). -/
def writeDraws (s : State) (n : Nat) : State := { s with draws := n }

/-- The result handed to the host (log 6). -/
def writeReply (s : State) (r : Reply) : State := { s with reply := r }

end State

/-! ### Faults (60_exceptions.md) -/

/-- The numeric code of a fault (R170, D8, log 12). -/
def faultCode : LatchedFault → Nat
  | .decodeError _ => 1
  | .addressOutOfRange _ => 2
  | .stackOverflow _ => 3
  | .stackUnderflow => 4
  | .romTooLarge _ => 5
  | .keyIndexOutOfRange _ => 6

/-- The info recorded with a fault (R170); StackUnderflow has none. -/
def faultInfo : LatchedFault → Option Nat
  | .decodeError w => some w.toNat
  | .addressOutOfRange a => some a
  | .stackOverflow n => some n
  | .stackUnderflow => none
  | .romTooLarge n => some n
  | .keyIndexOutOfRange k => some k.toNat

/-- `raise F(info)` (R176), the one way a fault is taken: the transaction ends, `fault` is set, the state
written before the raise point stays, and nothing is rolled back, saved or redirected. There is no
handler and no return from it (R179, R180); RESET alone clears the latch (R205, `hostReset`). -/
def raise (f : LatchedFault) (s : State) : Result := .next (s.writeFault (some f))

/-- Go on with the value of a primitive, or raise its fault in the state `s` it was tried in. -/
def orRaise {α : Type} (r : Except LatchedFault α) (s : State) (k : α → Result) : Result :=
  match r with
  | .error f => raise f s
  | .ok a => k a

/-! ### Primitives of R13 -/

/-- `MemRead(addr, 1)` (R47), `addr` unbounded. -/
def memRead (s : State) (addr : Nat) : Except LatchedFault Byte :=
  if addr > 0xFFF then .error (.addressOutOfRange addr) else .ok (s.byteAt addr)

/-- `MemWrite(addr, 1, v)` (R48), `addr` unbounded; a faulting write writes nothing. -/
def memWrite (s : State) (addr : Nat) (v : Byte) : Except LatchedFault State :=
  if addr > 0xFFF then .error (.addressOutOfRange addr)
  else .ok (s.writeMem (Memory.write s.mem addr v))

/-- `Fetch(pc)` (R50): two bytes, big-endian; faults when `pc + 1 > 4095`. -/
def fetch (s : State) : Except LatchedFault Word :=
  if s.pc.toNat + 1 > 4095 then .error (.addressOutOfRange s.pc.toNat)
  else .ok (wordOfBytes (s.byteAt s.pc.toNat) (s.byteAt (s.pc.toNat + 1)))

/-- `Push(v)` (R31; slot order D18, log 15; limit C1, log 17). -/
def push (s : State) (v : Word) : Except LatchedFault State :=
  if h : s.sp.val < 16 then
    .ok ((s.writeStack ⟨s.sp.val, h⟩ v).writeSp ⟨s.sp.val + 1, by omega⟩)
  else .error (.stackOverflow s.sp.val)

/-- `Pop()` (R32): the popped value and the state with `sp` lowered; the slot is not cleared (R33, D18). -/
def pop (s : State) : Except LatchedFault (Word × State) :=
  if h : 0 < s.sp.val then
    have := s.sp.isLt
    .ok (s.stackAt ⟨s.sp.val - 1, by omega⟩, s.writeSp ⟨s.sp.val - 1, by omega⟩)
  else .error .stackUnderflow

/-- The cycle's advance (R88) and `Skip()` (R92): `pc <- pc + 2`. -/
def advance (s : State) : State := s.writePc (s.pc + 2)

/-- A conditional skip: taken, it adds one more advance (R92). -/
def skipIf (taken : Bool) (s : State) : State := if taken then advance s else s

/-- WaitKey's rewind, `pc <- pc - 2` (R164). -/
def rewind (s : State) : State := s.writePc (s.pc - 2)

/-- `KeyRead(k)` (R160; an index above 0xF faults, D5, log 10). -/
def keyRead (s : State) (k : Byte) : Except LatchedFault Bool :=
  if h : k.toNat < 16 then .ok (s.keyAt ⟨k.toNat, h⟩) else .error (.keyIndexOutOfRange k)

/-- The lowest pressed key of an ascending scan (R164). -/
def firstPressed (s : State) : Option (Fin 16) := allRegs.find? (fun k => s.keyAt k)

/-! ### Multi-byte accesses, one byte at a time in ascending order (R54) -/

/-- `MemWrite(base, 1, v₀)`, `MemWrite(base + 1, 1, v₁)`, …: the first address out of range raises, and
the bytes before it stay written (R96, D6, log 11). -/
def storeBytes (base : Nat) : List Byte → State → Result
  | [], s => .next s
  | v :: vs, s => orRaise (memWrite s base v) s (storeBytes (base + 1) vs)

/-- `V[r₀] <- MemRead(base, 1)`, `V[r₁] <- MemRead(base + 1, 1)`, …: the first address out of range raises,
and the registers before it stay loaded (R96, D6, log 11). -/
def loadRegs (base : Nat) : List Reg → State → Result
  | [], s => .next s
  | r :: rs, s => orRaise (memRead s base) s (fun b => loadRegs (base + 1) rs (s.writeV r b))

/-! ### Drawing (44_display.md R152) -/

/-- The column `(px + col) mod 64` (R152). -/
def screenCol (a : Nat) : Fin 64 := ⟨a % 64, Nat.mod_lt _ (by decide)⟩

/-- The row `(py + row) mod 32` (R152). -/
def screenRow (a : Nat) : Fin 32 := ⟨a % 32, Nat.mod_lt _ (by decide)⟩

/-- `fb[j] <- not fb[j]` for pixel `(c, r)`. -/
def togglePixel (fb : Framebuffer) (c : Fin 64) (r : Fin 32) : Framebuffer :=
  fb.set r (fb[r].set c (!fb[r][c]))

/-- One column of a sprite row: bit `7 - col` of `b` set toggles the pixel, and a lit pixel is a collision. -/
def drawBit (px py : Nat) (b : Byte) (acc : Framebuffer × Bool) (col : Nat) : Framebuffer × Bool :=
  if b.getLsbD (7 - col) then
    (togglePixel acc.1 (screenCol (px + col)) (screenRow py),
     acc.2 || acc.1[screenRow py][screenCol (px + col)])
  else acc

/-- The eight columns of a sprite row, most significant bit first. -/
def drawByte (px py : Nat) (b : Byte) (acc : Framebuffer × Bool) : Framebuffer × Bool :=
  [0, 1, 2, 3, 4, 5, 6, 7].foldl (drawBit px py b) acc

end Sys2Proof.Machine
end

