-- ==== Sys2Proof/Machine/Operands.lean ====
section
/-! DEFINITION. The operand forms (30_encoding.md R68, 20_memory.md R49): zero extension of `nnn` and of a
register, the data address `I + offset`, the glyph address, and the digits of a byte. -/

namespace Sys2Proof.Machine

/-- `zext_16(nnn)` (R68). -/
def zext16 (nnn : BitVec 12) : Word := BitVec.ofNat 16 nnn.toNat

/-- The data address `I + offset`, an unbounded sum (R49). -/
def dataAddr (s : State) (offset : Nat) : Nat := s.I.toNat + offset

/-- The target of JumpV0Distance, `V[0] + nnn` (R108). -/
def v0Target (s : State) (nnn : BitVec 12) : Word := BitVec.ofNat 16 ((s.reg 0).toNat + nnn.toNat)

/-- `(I + V[x]) mod 65536` (R141). -/
def indexPlusReg (s : State) (x : Reg) : Word := BitVec.ofNat 16 (s.I.toNat + (s.reg x).toNat)

/-- `FONT_START + V[x] * 5` (R142). -/
def glyphAddr (v : Byte) : Word := BitVec.ofNat 16 (Config.fontStart + v.toNat * Config.glyphBytes)

/-- Hundreds, tens and ones of a byte (R143). -/
def bcdDigits (v : Byte) : List Byte :=
  [BitVec.ofNat 8 (v.toNat / 100), BitVec.ofNat 8 (v.toNat / 10 % 10), BitVec.ofNat 8 (v.toNat % 10)]

/-- The registers `V[0]..V[x]` in ascending order, the operands of LoadIntoRam and LoadFromRam (R144, R145). -/
def regsUpTo (x : Reg) : List Reg := allRegs.take (x.val + 1)

end Sys2Proof.Machine
end

