-- ==== Sys2Proof/Machine/Alu.lean ====
section
/-! DEFINITION. Register and arithmetic operations (42_register_alu.md). The statements of a rule take
effect in the written order (00_scope.md R11, D1, log 7). -/

namespace Sys2Proof.Machine

/-- SetToVal (R120): `V[x] <- kk`. -/
def execSetToVal (x : Reg) (kk : Byte) (s : State) : Result := .next (s.writeV x kk)

/-- AddVal (R121): `V[x] <- trunc_8(V[x] + kk)`, no flag. -/
def execAddVal (x : Reg) (kk : Byte) (s : State) : Result := .next (s.writeV x (s.reg x + kk))

/-- SetToReg (R122): `V[x] <- V[y]`. -/
def execSetToReg (x y : Reg) (s : State) : Result := .next (s.writeV x (s.reg y))

/-- BitwiseOr (R123). -/
def execBitwiseOr (x y : Reg) (s : State) : Result := .next (s.writeV x (s.reg x ||| s.reg y))

/-- BitwiseAnd (R124). -/
def execBitwiseAnd (x y : Reg) (s : State) : Result := .next (s.writeV x (s.reg x &&& s.reg y))

/-- BitwiseXor (R125). -/
def execBitwiseXor (x y : Reg) (s : State) : Result := .next (s.writeV x (s.reg x ^^^ s.reg y))

/-- AddReg (R126): the truncated sum to `V[x]`, then the carry to VF. -/
def execAddReg (x y : Reg) (s : State) : Result :=
  .next ((s.writeV x (s.reg x + s.reg y)).writeVF (carryFlag (s.reg x) (s.reg y)))

/-- SubReg (R127): `V[x] - V[y]` to `V[x]`, then not-borrow to VF. -/
def execSubReg (x y : Reg) (s : State) : Result :=
  .next ((s.writeV x (s.reg x - s.reg y)).writeVF (notBorrowFlag (s.reg x) (s.reg y)))

/-- ShiftRight (R128): bit 0 of `V[x]` to VF, then `V[x] <- V[x] >> 1` of what VF's write left. -/
def execShiftRight (x _y : Reg) (s : State) : Result :=
  let s' := s.writeVF (lowBitFlag (s.reg x))
  .next (s'.writeV x (s'.reg x >>> 1))

/-- SubFromReg (R129): `V[y] - V[x]` to `V[x]`, then not-borrow to VF. -/
def execSubFromReg (x y : Reg) (s : State) : Result :=
  .next ((s.writeV x (s.reg y - s.reg x)).writeVF (notBorrowFlag (s.reg y) (s.reg x)))

/-- ShiftLeft (R130): bit 7 of `V[x]` to VF, then `V[x] <- trunc_8(V[x] << 1)` of what VF's write left. -/
def execShiftLeft (x _y : Reg) (s : State) : Result :=
  let s' := s.writeVF (highBitFlag (s.reg x))
  .next (s'.writeV x (s'.reg x <<< 1))

/-- Rand (R131): `V[x] <- RandByte AND kk`, `RandByte` the TICK's random input (R193, log 4). -/
def execRand (x : Reg) (kk : Byte) (s : State) : Result := .next (s.writeV x (s.rand &&& kk))

end Sys2Proof.Machine
end

