-- ==== Sys2Proof/Machine/Control.lean ====
section
/-! DEFINITION. Control flow operations (41_control_flow.md). On entry `pc` already holds the fetch
address + 2 (40_execution_cycle.md R88). -/

namespace Sys2Proof.Machine

/-- Nop (R100): no effect. -/
def execNop (s : State) : Result := .next s

/-- Return (R101): `pc <- Pop()`. -/
def execRet (s : State) : Result := orRaise (pop s) s (fun p => .next (p.2.writePc p.1))

/-- Jump (R102): `pc <- zext_16(nnn)`. -/
def execJump (nnn : BitVec 12) (s : State) : Result := .next (s.writePc (zext16 nnn))

/-- Call (R103): `Push(pc)`, then `pc <- zext_16(nnn)`. -/
def execCall (nnn : BitVec 12) (s : State) : Result :=
  orRaise (push s s.pc) s (fun s' => .next (s'.writePc (zext16 nnn)))

/-- SkipIfValEQ (R104). -/
def execSkipIfValEQ (x : Reg) (kk : Byte) (s : State) : Result := .next (skipIf (s.reg x == kk) s)

/-- SkipIfValNE (R105). -/
def execSkipIfValNE (x : Reg) (kk : Byte) (s : State) : Result := .next (skipIf (s.reg x != kk) s)

/-- SkipIfRegEQ (R106). -/
def execSkipIfRegEQ (x y : Reg) (s : State) : Result := .next (skipIf (s.reg x == s.reg y) s)

/-- SkipIfRegNE (R107). -/
def execSkipIfRegNE (x y : Reg) (s : State) : Result := .next (skipIf (s.reg x != s.reg y) s)

/-- JumpV0Distance (R108): `pc <- V[0] + nnn`. -/
def execJumpV0Distance (nnn : BitVec 12) (s : State) : Result := .next (s.writePc (v0Target s nnn))

end Sys2Proof.Machine
end

