-- ==== Sys2Proof/Machine/Display.lean ====
section
/-! DEFINITION. Display operations (44_display.md). -/

namespace Sys2Proof.Machine

/-- ClearScreen (R151): every pixel false. -/
def execClearScreen (s : State) : Result := .next (s.writeFb blankScreen)

/-- The rows `row`, `row + 1`, … of R152's loop, `left` of them still to draw. `px`, `py`, `base` were
latched at the start; `collided` is the flag so far, written to VF after every row (R153, D3, log 9). -/
def drawRows (px py base : Nat) : (left row : Nat) → (collided : Bool) → State → Result
  | 0, _, _, s => .next s
  | left + 1, row, collided, s =>
    orRaise (memRead s (base + row)) s (fun b =>
      let drawn := drawByte px (py + row) b (s.fb, collided)
      drawRows px py base left (row + 1) drawn.2
        ((s.writeFb drawn.1).writeVF (collisionFlag drawn.2)))

/-- DrawSprite (R152): `n` rows of eight pixels, XORed onto the screen at `(V[x], V[y])`. -/
def execDrawSprite (x y : Reg) (n : Nat) (s : State) : Result :=
  drawRows (s.reg x).toNat (s.reg y).toNat (dataAddr s 0) n 0 false s

end Sys2Proof.Machine
end

