-- ==== Sys2Proof/Machine/IndexMem.lean ====
section
/-! DEFINITION. Index register and memory operations (43_index_and_memory.md). -/

namespace Sys2Proof.Machine

/-- SetIndex (R140): `I <- zext_16(nnn)`. -/
def execSetIndex (nnn : BitVec 12) (s : State) : Result := .next (s.writeI (zext16 nnn))

/-- IncrementI (R141): `I <- (I + V[x]) mod 65536`, no flag. -/
def execIncrementI (x : Reg) (s : State) : Result := .next (s.writeI (indexPlusReg s x))

/-- LoadFontChar (R142): `I <- FONT_START + V[x] * 5`, no guard. -/
def execLoadFontChar (x : Reg) (s : State) : Result := .next (s.writeI (glyphAddr (s.reg x)))

/-- BCD (R143): hundreds, tens, ones to `I`, `I+1`, `I+2`. -/
def execBcd (x : Reg) (s : State) : Result := storeBytes (dataAddr s 0) (bcdDigits (s.reg x)) s

/-- LoadIntoRam (R144): `V[0]..V[x]` to memory from `I` on. -/
def execLoadIntoRam (x : Reg) (s : State) : Result :=
  storeBytes (dataAddr s 0) ((regsUpTo x).map s.reg) s

/-- LoadFromRam (R145): `V[0]..V[x]` from memory from `I` on. -/
def execLoadFromRam (x : Reg) (s : State) : Result := loadRegs (dataAddr s 0) (regsUpTo x) s

end Sys2Proof.Machine
end

