-- ==== Sys2Proof/Machine/KeysTimers.lean ====
section
/-! DEFINITION. Key and timer operations (45_keys_and_timers.md). -/

namespace Sys2Proof.Machine

/-- SkipIfKeyPressed (R161). -/
def execSkipIfKeyPressed (x : Reg) (s : State) : Result :=
  orRaise (keyRead s (s.reg x)) s (fun pressed => .next (skipIf pressed s))

/-- SkipIfKeyNotPressed (R162). -/
def execSkipIfKeyNotPressed (x : Reg) (s : State) : Result :=
  orRaise (keyRead s (s.reg x)) s (fun pressed => .next (skipIf (!pressed) s))

/-- GetDelayTimer (R163): `V[x] <- DT`. -/
def execGetDelayTimer (x : Reg) (s : State) : Result := .next (s.writeV x s.DT)

/-- WaitKey (R164): the lowest pressed key to `V[x]`, else rewind so that the next TICK runs it again. -/
def execWaitKey (x : Reg) (s : State) : Result :=
  match firstPressed s with
  | some k => .next (s.writeV x (BitVec.ofNat 8 k.val))
  | none => .next (rewind s)

/-- SetDelayTimer (R165): `DT <- V[x]`. -/
def execSetDelayTimer (x : Reg) (s : State) : Result := .next (s.writeDT (s.reg x))

/-- SetSoundTimer (R166): `ST <- V[x]`. -/
def execSetSoundTimer (x : Reg) (s : State) : Result := .next (s.writeST (s.reg x))

end Sys2Proof.Machine
end

