-- ==== Sys2Proof/Machine/Dispatch.lean ====
section
/-! DEFINITION. The execute step (40_execution_cycle.md R90): one arm per operation. -/

namespace Sys2Proof.Machine

def exec (i : Instr) (s : State) : Host.Outcome State Fault Refusal :=
  match i with
  | .nop => Sys2Proof.Machine.execNop s
  | .clearScreen => Sys2Proof.Machine.execClearScreen s
  | .ret => Sys2Proof.Machine.execRet s
  | .jump nnn => Sys2Proof.Machine.execJump nnn s
  | .call nnn => Sys2Proof.Machine.execCall nnn s
  | .skipIfValEQ x kk => Sys2Proof.Machine.execSkipIfValEQ x kk s
  | .skipIfValNE x kk => Sys2Proof.Machine.execSkipIfValNE x kk s
  | .skipIfRegEQ x y => Sys2Proof.Machine.execSkipIfRegEQ x y s
  | .setToVal x kk => Sys2Proof.Machine.execSetToVal x kk s
  | .addVal x kk => Sys2Proof.Machine.execAddVal x kk s
  | .setToReg x y => Sys2Proof.Machine.execSetToReg x y s
  | .bitwiseOr x y => Sys2Proof.Machine.execBitwiseOr x y s
  | .bitwiseAnd x y => Sys2Proof.Machine.execBitwiseAnd x y s
  | .bitwiseXor x y => Sys2Proof.Machine.execBitwiseXor x y s
  | .addReg x y => Sys2Proof.Machine.execAddReg x y s
  | .subReg x y => Sys2Proof.Machine.execSubReg x y s
  | .shiftRight x y => Sys2Proof.Machine.execShiftRight x y s
  | .subFromReg x y => Sys2Proof.Machine.execSubFromReg x y s
  | .shiftLeft x y => Sys2Proof.Machine.execShiftLeft x y s
  | .skipIfRegNE x y => Sys2Proof.Machine.execSkipIfRegNE x y s
  | .setIndex nnn => Sys2Proof.Machine.execSetIndex nnn s
  | .jumpV0Distance nnn => Sys2Proof.Machine.execJumpV0Distance nnn s
  | .rand x kk => Sys2Proof.Machine.execRand x kk s
  | .drawSprite x y n => Sys2Proof.Machine.execDrawSprite x y n s
  | .skipIfKeyPressed x => Sys2Proof.Machine.execSkipIfKeyPressed x s
  | .skipIfKeyNotPressed x => Sys2Proof.Machine.execSkipIfKeyNotPressed x s
  | .getDelayTimer x => Sys2Proof.Machine.execGetDelayTimer x s
  | .waitKey x => Sys2Proof.Machine.execWaitKey x s
  | .setDelayTimer x => Sys2Proof.Machine.execSetDelayTimer x s
  | .setSoundTimer x => Sys2Proof.Machine.execSetSoundTimer x s
  | .incrementI x => Sys2Proof.Machine.execIncrementI x s
  | .loadFontChar x => Sys2Proof.Machine.execLoadFontChar x s
  | .bcd x => Sys2Proof.Machine.execBcd x s
  | .loadIntoRam x => Sys2Proof.Machine.execLoadIntoRam x s
  | .loadFromRam x => Sys2Proof.Machine.execLoadFromRam x s

end Sys2Proof.Machine
end

