-- ==== Sys2Proof/Machine/Cycle.lean ====
section
/-! DEFINITION. The host's six transactions (60_exceptions.md R191): TICK, the fetch–decode–execute cycle
(40_execution_cycle.md R85–R96), the timer decrement unit, KEY, FB_READ, LOAD_ROM and RESET. -/

namespace Sys2Proof.Machine

/-- The result a completed TICK hands to the host: `ok`, or the fault it raised (R91, R176). -/
def tickReply (s : State) : Reply :=
  match s.fault with
  | none => .ok
  | some f => .faulted f

/-- Hand the TICK's result to the host. -/
def answerTick : Result → Result
  | .next s => .next (s.writeReply (tickReply s))
  | .fault r => .fault r
  | .refused r => .refused r

/-- Steps 3 and 4 of the cycle, on the fetched word (R89, R90). -/
def decodeAndExecute (w : Word) (s : State) : Result :=
  match decode w with
  | .error _ => raise (.decodeError w) s
  | .ok i => exec i s

/-- The cycle of R95: fetch, advance (R88), decode, execute. -/
def cycle (s : State) : Result :=
  orRaise (fetch s) s (fun w => decodeAndExecute w (advance s))

/-- TICK (R85, R95): admitted only when `fault = none` (D7, log 2). The random byte is in `s.rand`. -/
def tick (s : State) : Result :=
  match s.fault with
  | some _ => .fault .tickNotAdmitted
  | none => answerTick (cycle s)

/-- A timer counts down while it is above 0 (R185, R186). -/
def countDown (t : Byte) : Byte := if t = 0 then 0 else t - 1

/-- TICK_TIMERS (R184): both timers count down; `play_tone` when ST goes from 1 to 0. -/
def tickTimers (s : State) : State :=
  ((s.writeDT (countDown s.DT)).writeST (countDown s.ST)).writeReply (.playTone (s.ST == 1))

/-- KEY(index, pressed) (R188): an index outside 0..0xF is ignored, no error (log 20). -/
def keyPress (index : Int) (pressed : Bool) (s : State) : State :=
  let s' := s.writeReply .noResult
  if h : 0 ≤ index ∧ index ≤ 0xF then s'.writeKey ⟨index.toNat, by omega⟩ pressed else s'

/-- The 2048 booleans in index order `64*y + x` (R189). -/
def pixelsInOrder (fb : Framebuffer) : List Bool := fb.toList.flatMap (fun row => row.toList)

/-- FB_READ (R189): changes no state of the block. -/
def fbRead (s : State) : State := s.writeReply (.pixels (pixelsInOrder s.fb))

/-- LOAD_ROM(bytes) (R202): the size check before any write (D15, log 14). -/
def loadRom (bytes : List Byte) (s : State) : State :=
  if Config.startAddr + bytes.length > Config.memSize then
    (s.writeFault (some (.romTooLarge bytes.length))).writeReply (.faulted (.romTooLarge bytes.length))
  else (s.writeMem (Memory.writeAll s.mem Config.startAddr bytes)).writeReply .ok

/-- RESET (R200, R205): the block as R41 says; the host's pending calls and the free bytes still to be
drawn are not the block's and stay (log 3, 4). -/
def hostReset (s : State) : State :=
  ((State.reset.writeCalls s.calls).writeRand s.rand).writeDraws s.draws

/-- One host transaction (R191, R192). -/
def hostCall (c : HostCall) (s : State) : Result :=
  match c with
  | .reset => .next (hostReset s)
  | .loadRom bytes => .next (loadRom bytes s)
  | .key index pressed => .next (keyPress index pressed s)
  | .tick rand => tick (s.writeRand rand)
  | .tickTimers => .next (tickTimers s)
  | .fbRead => .next (fbRead s)

/-- The random byte of a TICK that the call list does not give: a fresh free value (R193, D9, log 4). -/
def drawRand (s : State) : State := (s.writeRand (Config.randByte s.draws)).writeDraws (s.draws + 1)

/-- The machine's next transaction: the oldest pending call, or a TICK when none is listed (log 3). -/
def transact (s : State) : Result :=
  match s.calls with
  | [] => tick (drawRand s)
  | c :: rest => hostCall c (s.writeCalls rest)

/-- Store the two bytes of `w` at `pc`, where the fetch reads them, when both addresses exist (R50, R51). -/
def placeWord (w : Word) (s : State) : State :=
  if s.pc.toNat + 1 > 4095 then s
  else s.writeMem (Memory.writeAll s.mem s.pc.toNat [highByte w, lowByte w])

/-- What it takes for the next step to run the word `w`: its bytes at `pc`, no other call pending, and no
fault latched (R85). -/
def runNext (w : Word) (s : State) : State := placeWord w ((s.writeCalls []).writeFault none)

end Sys2Proof.Machine
end

