-- ==== Sys2Proof/Machine/Step.lean ====
section
/-! DEFINITION. One step of the machine: one host transaction (60_exceptions.md R191). -/

namespace Sys2Proof.Machine

/-- One step: the next transaction. -/
def step (s : State) : Host.Outcome State Fault Refusal := transact s

/-- `s` with the instruction of table word `w` (its bits from `nbits` on zero) where the next step fetches,
stored big-endian as R51 says (log 19). -/
def State.withFetchWord (s : State) (nbits w : Nat) : State :=
  runNext (BitVec.ofNat 16 (w % 2 ^ nbits)) s

end Sys2Proof.Machine
end

