-- ==== Sys2Proof/Safety.lean ====
section
/-! DEFINITION. What claims are stated in: the parts of the state a step may or may not change, the machine
invariant, and what a running (not stuck) machine is. -/

namespace Sys2Proof.Machine

/-- The parts of the block's state (R20), for frame statements (R12). -/
inductive Part where
  | pc | regs | index | stack | keys | delay | sound | screen | memory | latch
  deriving DecidableEq, Repr

/-- The part is the same in `s` and `t`, said through the model's own reads. -/
def Part.same (p : Part) (s t : State) : Prop :=
  match p with
  | .pc => t.pc = s.pc
  | .regs => ∀ r, t.reg r = s.reg r
  | .index => t.I = s.I
  | .stack => t.sp = s.sp ∧ ∀ j, t.stackAt j = s.stackAt j
  | .keys => ∀ k, t.keyAt k = s.keyAt k
  | .delay => t.DT = s.DT
  | .sound => t.ST = s.ST
  | .screen => ∀ c r, t.pixel c r = s.pixel c r
  | .memory => ∀ a, t.byteAt a = s.byteAt a
  | .latch => t.fault = s.fault

/-- Every part of the block but those listed is unchanged (R12). -/
def keepsParts (parts : List Part) (s t : State) : Prop := ∀ p, p ∉ parts → p.same s t

/-- The model's own fields are the same: pending calls, this TICK's random byte, free bytes, last result. -/
def hostSame (s t : State) : Prop :=
  t.calls = s.calls ∧ t.rand = s.rand ∧ t.draws = s.draws ∧ t.reply = s.reply

/-- Every part of the block but those listed is unchanged, and so are the model's own fields. -/
def sameExcept (parts : List Part) (s t : State) : Prop :=
  keepsParts parts s t ∧ hostSame s t

/-- Operation `i` stores to address `a` when it runs in state `s`: BCD to three bytes from `I` on (R143),
LoadIntoRam to `x + 1` bytes from `I` on (R144), no other operation anywhere (R54). -/
def stores (i : Instr) (s : State) (a : Nat) : Prop :=
  match i with
  | .bcd _ => ∃ k, k < 3 ∧ a = dataAddr s k
  | .loadIntoRam x => ∃ k, k ≤ x.val ∧ a = dataAddr s k
  | _ => False

/-- The byte at address `a` once the bytes `stored` lie in the memory of `s` from `base` on: the stored byte
where one lies, else the byte of `s` (R55, R59). -/
def overlaid (stored : List Byte) (base : Nat) (s : State) (a : Nat) : Byte :=
  if base ≤ a then stored[a - base]?.getD (s.byteAt a) else s.byteAt a

/-- The big-endian word at `a` once `stored` lies from `base` on (R51). -/
def overlaidWord (stored : List Byte) (base : Nat) (s : State) (a : Nat) : Word :=
  wordOfBytes (overlaid stored base s a) (overlaid stored base s (a + 1))

/-- A set bit of the `n`-row sprite at `I`, drawn at `(V[x], V[y])`, falls on pixel `(c, r)`: some row and
column of the sprite land there with wraparound, and the bit, most significant first, is 1 (R152). -/
def spriteCovers (s : State) (x y : Reg) (n : Nat) (c : Fin 64) (r : Fin 32) : Prop :=
  ∃ row col : Nat, row < n ∧ col < 8 ∧ c.val = ((s.reg x).toNat + col) % 64 ∧
    r.val = ((s.reg y).toNat + row) % 32 ∧ (s.byteAt (dataAddr s row)).getLsbD (7 - col) = true

/-- The info a latched fault may carry, by the condition that raises it (R170–R177). -/
def LatchedFault.legal : LatchedFault → Prop
  | .decodeError w => decode w = .error (.invalid w)
  | .addressOutOfRange a => 0xFFF ≤ a
  | .stackOverflow n => n = 16
  | .stackUnderflow => True
  | .romTooLarge len => 3584 < len
  | .keyIndexOutOfRange k => 0xF < k.toNat

/-- The machine invariant: memory in canonical form inside the 4096 bytes (R45); `pc` never above the
highest value R93 lists; every live stack entry an earlier `pc` + 2, at most 0x1000 (R93); and a latched
fault that its own condition can raise (R170). -/
structure State.Inv (s : State) : Prop where
  memWf : Memory.wf s.mem
  pcRange : s.pc.toNat ≤ 0x10FE
  stackRange : ∀ j : Fin 16, j.val < s.sp.val → (s.stackAt j).toNat ≤ 0x1000
  latchLegal : ∀ f, s.fault = some f → f.legal

/-- A running machine: no fault is latched, so TICK is admitted (R85). -/
def State.running (s : State) : Prop := s.fault = none

/-- A safe run of `k` steps: no step is stuck or refused, and the machine is running at its end. -/
def safeRun (k : Nat) (s : State) : Prop :=
  ∃ t, Host.Core.run ⟨State, Fault, Refusal, step, State.reset⟩ k s = .next t ∧ t.running

end Sys2Proof.Machine
end

