-- ==== Sys2Proof/Certificates/Slice0/Obligations.lean ====
section
/-! DEFINITION. The statements for the provers. "log <n>" is notes/assumptions/<n>.md. A statement that
rests on one of the spec's own decisions (D<n> of 92_eei_decisions.md) says so; "Frame: D2, log 8" is the
frame rule R12 for what the operation's own rule does not mention. -/

open Sys2Proof Sys2Proof.Machine

/-! ### Decoder and encoder (30_encoding.md) -/

/-- Decode and encode agree, one way: every well-formed instruction comes back from its own word with every
operand. The pairing of names and codes in the eight-group and the F-group is the spec's (D19, D20, log 16). -/
def Obligations.DecodeOfEncodeIsTheInstruction : Prop :=
  ∀ i : Instr, i.wf = true → decode (encode i) = .ok i

/-- Decode and encode agree, the other way (R80, which the spec marks as derived): a valid word is the
encoding of what it decodes to, and that is well-formed. -/
def Obligations.EncodeOfDecodeIsTheWord : Prop :=
  ∀ (w : Word) (i : Instr), decode w = .ok i → i.wf = true ∧ encode i = w

/-- No word satisfies two rows of the decode table (R73, derived), and the table has 35 rows. -/
def Obligations.DecodeTableRowsAreDisjoint : Prop :=
  decodeTable.length = 35 ∧
  ∀ (a b : Nat) (ha : a < decodeTable.length) (hb : b < decodeTable.length) (w : Word),
    decodeTable[a].selects w = true → decodeTable[b].selects w = true → a = b

/-- The invalid words are exactly those the table of R75 lists (its rows 8 and F rest on D19, D20, log 16),
and the decoder names the word it rejects. -/
def Obligations.DecodeRejectsExactlyTheListedWords : Prop :=
  ∀ w : Word,
    (decode w = .error (.invalid w) ↔
      (bits w 15 12 = 0x0 ∧ w ≠ 0x0000 ∧ w ≠ 0x00E0 ∧ w ≠ 0x00EE) ∨
      (bits w 15 12 = 0x5 ∧ bits w 3 0 ≠ 0) ∨
      (bits w 15 12 = 0x8 ∧ bits w 3 0 ∈ [0x8, 0x9, 0xA, 0xB, 0xC, 0xD, 0xF]) ∨
      (bits w 15 12 = 0x9 ∧ bits w 3 0 ≠ 0) ∨
      (bits w 15 12 = 0xE ∧ bits w 7 0 ∉ [0x9E, 0xA1]) ∨
      (bits w 15 12 = 0xF ∧ bits w 7 0 ∉ [0x07, 0x0A, 0x15, 0x18, 0x1E, 0x29, 0x33, 0x55, 0x65])) ∧
    ∀ e, decode w = .error e → e = .invalid w

/-- Words written out from the patterns of R70, one or more of every format of R67. -/
def Obligations.DecodeOfWrittenOutWords : Prop :=
  decode 0b0000000000000000 = .ok .nop ∧
  decode 0b0000000011101110 = .ok .ret ∧
  decode 0b0010001101000101 = .ok (.call 0x345) ∧
  decode 0b0011101001011100 = .ok (.skipIfValEQ 0xA 0x5C) ∧
  decode 0b0101000100100000 = .ok (.skipIfRegEQ 1 2) ∧
  decode 0b1000000100100111 = .ok (.subFromReg 1 2) ∧
  decode 0b1101001101001111 = .ok (.drawSprite 3 4 15) ∧
  decode 0b1110011110011110 = .ok (.skipIfKeyPressed 7) ∧
  decode 0b1111110001100101 = .ok (.loadFromRam 0xC) ∧
  decode 0b1000000100101000 = .error (.invalid 0x8128)

/-! ### The cycle (40_execution_cycle.md) -/

/-- A step runs the decoded instruction. With no fault latched and both bytes at `pc` in memory, a word that
decodes to `i` makes the step `exec i` on the state with `pc` advanced by 2 (R88, R90), the random byte of
this TICK supplied (a free byte, or the one the host's TICK call carries), and the result then handed to the
host: `ok`, or the fault latched (R91, R176). Two forms: no call pending, and a TICK call first (log 3, 4). -/
def Obligations.StepRunsTheDecodedInstruction : Prop :=
  ∀ (s : State) (i : Instr), s.fault = none → s.pc.toNat + 1 ≤ 4095 →
    decode (wordOfBytes (s.byteAt s.pc.toNat) (s.byteAt (s.pc.toNat + 1))) = .ok i →
    (s.calls = [] → step s = answerTick (exec i
      ((s.writePc (s.pc + 2)).writeRand (Config.randByte s.draws) |>.writeDraws (s.draws + 1)))) ∧
    (∀ r rest, s.calls = .tick r :: rest → step s = answerTick (exec i
      ((s.writePc (s.pc + 2)).writeRand r |>.writeCalls rest))) ∧
    ∀ t, answerTick (.next t) = .next (t.writeReply
      (match t.fault with
       | none => .ok
       | some f => .faulted f))

/-- R86: "If the fetch faults (`pc + 1 > 4095`), the TICK ends with AddressOutOfRange(pc). All state is
unchanged except `fault`, and `pc` still holds the faulting address." The host gets the fault. -/
def Obligations.FetchPastTheEndLatchesAddress : Prop :=
  ∀ s : State, s.fault = none → 4095 < s.pc.toNat + 1 →
    ∃ t, tick s = .next t ∧ t.fault = some (.addressOutOfRange s.pc.toNat) ∧ t.pc = s.pc ∧
      t.reply = .faulted (.addressOutOfRange s.pc.toNat) ∧ keepsParts [.latch] s t

/-- R89: an invalid word ends the TICK with DecodeError(w); `pc` is already the fetch address + 2, and
nothing else has changed. -/
def Obligations.InvalidWordLatchesDecodeErrorAfterAdvance : Prop :=
  ∀ (s : State) (w : Word), s.fault = none → fetch s = .ok w → decode w = .error (.invalid w) →
    ∃ t, tick s = .next t ∧ t.fault = some (.decodeError w) ∧ t.pc = s.pc + 2 ∧
      t.reply = .faulted (.decodeError w) ∧ keepsParts [.pc, .latch] s t

/-- The spec's own decision D7 (R181, log 2): while a fault is latched TICK has no step, in whichever way it
is issued; KEY, TICK_TIMERS and FB_READ stay defined and keep the latch, LOAD_ROM never clears it, and
RESET clears it. That a LOAD_ROM of too many bytes puts RomTooLarge in the place of the fault latched before
is the model's own reading, not D7's words (log 21). -/
def Obligations.FaultedMachineTicksNoMoreUntilReset : Prop :=
  ∀ (s : State) (f : LatchedFault), s.fault = some f →
    (s.calls = [] → step s = .fault .tickNotAdmitted) ∧
    (∀ r, hostCall (.tick r) s = .fault .tickNotAdmitted) ∧
    (∀ k b, ∃ t, hostCall (.key k b) s = .next t ∧ t.fault = some f) ∧
    (∃ t, hostCall .tickTimers s = .next t ∧ t.fault = some f) ∧
    (∃ t, hostCall .fbRead s = .next t ∧ t.fault = some f) ∧
    (∀ bytes, ∃ t, hostCall (.loadRom bytes) s = .next t ∧
      t.fault = if 3584 < bytes.length then some (.romTooLarge bytes.length) else some f) ∧
    ∃ t, hostCall .reset s = .next t ∧ t.fault = none

/-- An admitted TICK always ends (R85: it "fetches, advances, decodes and executes one instruction, or it
faults"): no instruction is refused or stuck, and the host gets `ok` exactly when no fault is latched. -/
def Obligations.AdmittedTickAlwaysEnds : Prop :=
  ∀ s : State, s.fault = none → ∃ t, tick s = .next t ∧
    (t.fault = none → t.reply = .ok) ∧ ∀ f, t.fault = some f → t.reply = .faulted f

/-- Zeroed memory runs as Nop (R77, derived): two zero bytes at `pc` make the TICK advance `pc` by 2 and
change nothing else of the block. -/
def Obligations.ZeroBytesRunAsNop : Prop :=
  ∀ s : State, s.fault = none → s.pc.toNat + 1 ≤ 4095 → s.byteAt s.pc.toNat = 0 →
    s.byteAt (s.pc.toNat + 1) = 0 →
    ∃ t, tick s = .next t ∧ t.pc.toNat = s.pc.toNat + 2 ∧ t.reply = .ok ∧ keepsParts [.pc] s t

/-! ### Rules of the whole machine -/

/-- R98: "The execution engine never writes `keys`", and "It never writes memory outside the accesses of
20_memory.md rule R54": an operation stores only to its own addresses (`stores`), and a whole TICK only to
those of the operation it fetched and decoded. -/
def Obligations.EngineWritesNoKeyAndOnlyItsStoredBytes : Prop :=
  (∀ (i : Instr) (s t : State), exec i s = .next t →
    (∀ k, t.keyAt k = s.keyAt k) ∧ ∀ a, ¬ stores i s a → t.byteAt a = s.byteAt a) ∧
  ∀ s t : State, tick s = .next t →
    (∀ k, t.keyAt k = s.keyAt k) ∧
    ∀ a, (∀ w i, fetch s = .ok w → decode w = .ok i → ¬ stores i s a) → t.byteAt a = s.byteAt a

/-- Who writes the special registers and the screen: `I` SetIndex, IncrementI and LoadFontChar alone (R27,
R28); `DT` SetDelayTimer alone and `ST` SetSoundTimer alone, each to the value of `V[x]` (R34, R35, R97);
the framebuffer ClearScreen and DrawSprite alone (R37); stack and `sp` Call and Return alone (R30). It
rests on the frame rule, the spec's decision D2 (log 8). -/
def Obligations.SpecialStateHasOnlyItsWriters : Prop :=
  ∀ (i : Instr) (s t : State), exec i s = .next t →
    (t.I ≠ s.I → (∃ nnn, i = .setIndex nnn) ∨ (∃ x, i = .incrementI x) ∨ ∃ x, i = .loadFontChar x) ∧
    (t.DT ≠ s.DT → ∃ x, i = .setDelayTimer x ∧ t.DT = s.reg x) ∧
    (t.ST ≠ s.ST → ∃ x, i = .setSoundTimer x ∧ t.ST = s.reg x) ∧
    ((∃ c r, t.pixel c r ≠ s.pixel c r) → i = .clearScreen ∨ ∃ x y n, i = .drawSprite x y n) ∧
    ((t.sp ≠ s.sp ∨ ∃ j, t.stackAt j ≠ s.stackAt j) → i = .ret ∨ ∃ nnn, i = .call nnn)

/-- R25: the flag operations AddReg, SubReg, SubFromReg, ShiftRight, ShiftLeft and DrawSprite aside, "No
other operation writes VF except as its named destination register." It rests on D2 (log 8). -/
def Obligations.VFChangesOnlyAsFlagOrDestination : Prop :=
  ∀ (i : Instr) (s t : State), exec i s = .next t → t.reg regF ≠ s.reg regF →
    match i with
    | .addReg _ _ | .subReg _ _ | .subFromReg _ _ | .shiftRight _ _ | .shiftLeft _ _
    | .drawSprite _ _ _ => True
    | .setToVal x _ | .addVal x _ | .rand x _ => x = regF
    | .setToReg x _ | .bitwiseOr x _ | .bitwiseAnd x _ | .bitwiseXor x _ => x = regF
    | .getDelayTimer x | .waitKey x | .loadFromRam x => x = regF
    | _ => False

/-- Which fault an operation can latch (R178, derived: "No operation can raise two different kinds of fault
at execute"; the data and key cases are the spec's D4 and D5, log 10). -/
def Obligations.EachOperationHasItsOneFault : Prop :=
  ∀ (i : Instr) (s t : State) (f : LatchedFault), s.fault = none → exec i s = .next t → t.fault = some f →
    match i with
    | .call _ => f = .stackOverflow 16
    | .ret => f = .stackUnderflow
    | .drawSprite _ _ _ | .bcd _ | .loadIntoRam _ | .loadFromRam _ =>
      f = .addressOutOfRange (max s.I.toNat 0x1000)
    | .skipIfKeyPressed x | .skipIfKeyNotPressed x =>
      f = .keyIndexOutOfRange (s.reg x) ∧ 0xF < (s.reg x).toNat
    | _ => False

/-- Every operation but Rand ignores the random byte (R193): with another byte the run is the same but for
the byte itself. -/
def Obligations.OnlyRandReadsTheRandomByte : Prop :=
  ∀ (i : Instr) (s t : State) (b : Byte), (∀ x kk, i ≠ .rand x kk) → exec i s = .next t →
    exec i (s.writeRand b) = .next (t.writeRand b)

/-- "A program cannot observe `ST`" (R35): with another value in ST an operation does the same to all the
rest of the state. -/
def Obligations.SoundTimerIsInvisibleToPrograms : Prop :=
  ∀ (i : Instr) (s t : State) (b : Byte), exec i s = .next t →
    ∃ u, exec i (s.writeST b) = .next u ∧ u.writeST t.ST = t

/-! ### Control flow (41_control_flow.md) -/

/-- R100: Nop, exactly the word 0x0000, has no effect; the other `0nnn` words that are no operation are
invalid. -/
def Obligations.NopHasNoEffect : Prop :=
  (∀ w : Word, decode w = .ok .nop ↔ w = 0x0000) ∧
  (∀ w : Word, bits w 15 12 = 0x0 → w ≠ 0x0000 → w ≠ 0x00E0 → w ≠ 0x00EE → decode w = .error (.invalid w)) ∧
  ∀ s : State, exec .nop s = .next s

/-- Jump (R102). `pc` becomes `nnn`, odd or even, and nothing else changes; a target of 0xFFF faults at the
next fetch; a Jump to its own address is an idle loop: the TICK leaves the whole block as it was.
Frame: D2, log 8. -/
def Obligations.JumpGoesToItsAddress : Prop :=
  ∀ (nnn : BitVec 12) (s : State),
    decode (wordNNN 0x1 nnn) = .ok (.jump nnn) ∧
    (∃ t, exec (.jump nnn) s = .next t ∧ t.pc.toNat = nnn.toNat ∧ sameExcept [.pc] s t ∧
      (nnn = 0xFFF → fetch t = .error (.addressOutOfRange 0xFFF))) ∧
    (s.fault = none → s.pc.toNat = nnn.toNat → fetch s = .ok (wordNNN 0x1 nnn) →
      ∃ t, tick s = .next t ∧ t.reply = .ok ∧ keepsParts [] s t)

/-- SkipIfValEQ and SkipIfValNE (R104, R105). A skip on an immediate adds 2 to `pc` exactly when the register
equals (differs from) `kk`, and changes nothing else. `pc` on entry is the fetch address + 2. Frame: D2, log
8. -/
def Obligations.SkipIfValSkipsOnItsCondition : Prop :=
  ∀ (x : Reg) (kk : Byte) (s : State),
    decode (wordXKK 0x3 x kk) = .ok (.skipIfValEQ x kk) ∧
    decode (wordXKK 0x4 x kk) = .ok (.skipIfValNE x kk) ∧
    (∃ t, exec (.skipIfValEQ x kk) s = .next t ∧ sameExcept [.pc] s t ∧
      t.pc = if (s.reg x).toNat = kk.toNat then s.pc + 2 else s.pc) ∧
    ∃ t, exec (.skipIfValNE x kk) s = .next t ∧ sameExcept [.pc] s t ∧
      t.pc = if (s.reg x).toNat = kk.toNat then s.pc else s.pc + 2

/-- SkipIfRegEQ and SkipIfRegNE (R106, R107). A skip on two registers adds 2 to `pc` exactly when they are
equal (differ), and changes nothing else; the words with a minor nibble other than 0 are invalid. Frame: D2,
log 8. -/
def Obligations.SkipIfRegSkipsOnItsCondition : Prop :=
  ∀ (x y : Reg) (s : State),
    decode (wordXYN 0x5 x y 0) = .ok (.skipIfRegEQ x y) ∧
    decode (wordXYN 0x9 x y 0) = .ok (.skipIfRegNE x y) ∧
    (∀ k, 0 < k → k < 16 → decode (wordXYN 0x5 x y k) = .error (.invalid (wordXYN 0x5 x y k)) ∧
      decode (wordXYN 0x9 x y k) = .error (.invalid (wordXYN 0x9 x y k))) ∧
    (∃ t, exec (.skipIfRegEQ x y) s = .next t ∧ sameExcept [.pc] s t ∧
      t.pc = if (s.reg x).toNat = (s.reg y).toNat then s.pc + 2 else s.pc) ∧
    ∃ t, exec (.skipIfRegNE x y) s = .next t ∧ sameExcept [.pc] s t ∧
      t.pc = if (s.reg x).toNat = (s.reg y).toNat then s.pc else s.pc + 2

/-- JumpV0Distance (R108). `pc` becomes `V[0] + nnn` without a wrap, nothing else changes, and a target of
0xFFF or more faults at the next fetch. Frame: D2, log 8. -/
def Obligations.JumpV0DistanceAddsV0 : Prop :=
  ∀ (nnn : BitVec 12) (s : State),
    decode (wordNNN 0xB nnn) = .ok (.jumpV0Distance nnn) ∧
    ∃ t, exec (.jumpV0Distance nnn) s = .next t ∧ t.pc.toNat = (s.reg 0).toNat + nnn.toNat ∧
      sameExcept [.pc] s t ∧
      (0xFFF ≤ t.pc.toNat → fetch t = .error (.addressOutOfRange t.pc.toNat))

/-- Call with room on the stack (R103; slot order D18, limit of 16 entries C1, logs 15 and 17): `pc` (the
following instruction's address) goes to `stack[sp]`, `sp` rises by one, `pc` becomes `nnn`; no other stack
entry and nothing else changes. Frame: D2, log 8. -/
def Obligations.CallPushesAndJumps : Prop :=
  ∀ (nnn : BitVec 12) (s : State) (h : s.sp.val < 16),
    ∃ t, exec (.call nnn) s = .next t ∧ t.pc.toNat = nnn.toNat ∧ t.sp.val = s.sp.val + 1 ∧
      t.stackAt ⟨s.sp.val, h⟩ = s.pc ∧ (∀ j : Fin 16, j.val ≠ s.sp.val → t.stackAt j = s.stackAt j) ∧
      sameExcept [.pc, .stack] s t

/-- Return with an entry on the stack (R101, R32; D18, log 15): `pc` becomes the entry below `sp`, `sp`
falls by one; the entry is not cleared and nothing else changes. Frame: D2, log 8. -/
def Obligations.ReturnPopsIntoPc : Prop :=
  ∀ (s : State) (j : Fin 16), s.sp.val = j.val + 1 →
    ∃ t, exec .ret s = .next t ∧ t.pc = s.stackAt j ∧ t.sp.val = j.val ∧
      (∀ k, t.stackAt k = s.stackAt k) ∧ sameExcept [.pc, .stack] s t

/-- Stack misuse: Call on a full stack latches StackOverflow(16), Return on an empty one StackUnderflow, and
nothing else changes, `pc` included (R103, R101, R173, R174; the state left is D6, the limit C1, logs 11, 17).
Frame: D2, log 8. -/
def Obligations.StackMisuseLatchesItsFault : Prop :=
  (∀ (nnn : BitVec 12) (s : State), s.sp.val = 16 →
    ∃ t, exec (.call nnn) s = .next t ∧ t.fault = some (.stackOverflow 16) ∧ sameExcept [.latch] s t) ∧
  ∀ s : State, s.sp.val = 0 →
    ∃ t, exec .ret s = .next t ∧ t.fault = some .stackUnderflow ∧ sameExcept [.latch] s t

/-- "Call then Return restores pc to the instruction immediately after the Call" (R101; slots D18, log 15):
whatever ran in between, when it left `sp` and the entries below it as the Call did, Return goes back to the
Call's `pc`, with the Call's depth. The slots at `sp` and above may hold anything (R33), so the body may make
Calls and Returns of its own. -/
def Obligations.ReturnResumesAfterItsCall : Prop :=
  ∀ (nnn : BitVec 12) (s : State), s.sp.val < 16 →
    ∃ t, exec (.call nnn) s = .next t ∧
      ∀ u : State, u.sp = t.sp → (∀ j : Fin 16, j.val < u.sp.val → u.stackAt j = t.stackAt j) →
        ∃ v, exec .ret u = .next v ∧ v.pc = s.pc ∧ v.sp = s.sp

/-! ### Register ALU (42_register_alu.md) -/

/-- SetToVal and AddVal (R120, R121). SetToVal loads `kk`; AddVal adds `kk` modulo 256 with no flag. No other
register and nothing else changes. Frame: D2, log 8. -/
def Obligations.ImmediateLoadAndAdd : Prop :=
  ∀ (x : Reg) (kk : Byte) (s : State),
    decode (wordXKK 0x6 x kk) = .ok (.setToVal x kk) ∧
    decode (wordXKK 0x7 x kk) = .ok (.addVal x kk) ∧
    (∃ t, exec (.setToVal x kk) s = .next t ∧ t.reg x = kk ∧ (∀ r, r ≠ x → t.reg r = s.reg r) ∧
      sameExcept [.regs] s t) ∧
    ∃ t, exec (.addVal x kk) s = .next t ∧ (t.reg x).toNat = ((s.reg x).toNat + kk.toNat) % 256 ∧
      (∀ r, r ≠ x → t.reg r = s.reg r) ∧ sameExcept [.regs] s t

/-- R122–R125: copy, or, and, xor, bit by bit; no flag, no other register and nothing else changes.
Frame: D2, log 8. -/
def Obligations.CopyAndBitwiseOperations : Prop :=
  ∀ (x y : Reg) (s : State),
    (∃ t, exec (.setToReg x y) s = .next t ∧ t.reg x = s.reg y ∧
      (∀ r, r ≠ x → t.reg r = s.reg r) ∧ sameExcept [.regs] s t) ∧
    (∃ t, exec (.bitwiseOr x y) s = .next t ∧
      (∀ k, k < 8 → (t.reg x).getLsbD k = ((s.reg x).getLsbD k || (s.reg y).getLsbD k)) ∧
      (∀ r, r ≠ x → t.reg r = s.reg r) ∧ sameExcept [.regs] s t) ∧
    (∃ t, exec (.bitwiseAnd x y) s = .next t ∧
      (∀ k, k < 8 → (t.reg x).getLsbD k = ((s.reg x).getLsbD k && (s.reg y).getLsbD k)) ∧
      (∀ r, r ≠ x → t.reg r = s.reg r) ∧ sameExcept [.regs] s t) ∧
    ∃ t, exec (.bitwiseXor x y) s = .next t ∧
      (∀ k, k < 8 → (t.reg x).getLsbD k = ((s.reg x).getLsbD k ^^ (s.reg y).getLsbD k)) ∧
      (∀ r, r ≠ x → t.reg r = s.reg r) ∧ sameExcept [.regs] s t

/-- AddReg (R126): the sum modulo 256 to `V[x]`, then VF the carry. With `x = F` the flag wins, because
the flag write comes last (R11: D1, log 7). Frame: D2, log 8. -/
def Obligations.AddRegGivesSumAndCarry : Prop :=
  ∀ (x y : Reg) (s : State), ∃ t, exec (.addReg x y) s = .next t ∧
    (x ≠ regF → (t.reg x).toNat = ((s.reg x).toNat + (s.reg y).toNat) % 256) ∧
    (t.reg regF).toNat = (if 0xFF < (s.reg x).toNat + (s.reg y).toNat then 1 else 0) ∧
    (∀ r, r ≠ x → r ≠ regF → t.reg r = s.reg r) ∧ sameExcept [.regs] s t

/-- SubReg and SubFromReg (R127, R129): the difference modulo 256 to `V[x]`, then VF = 1 when there is no
borrow. With `x = F` the flag wins (D1, log 7). Frame: D2, log 8. -/
def Obligations.SubtractionsGiveDifferenceAndNotBorrow : Prop :=
  ∀ (x y : Reg) (s : State),
    (∃ t, exec (.subReg x y) s = .next t ∧
      (x ≠ regF → (t.reg x).toNat = ((s.reg x).toNat + 256 - (s.reg y).toNat) % 256) ∧
      (t.reg regF).toNat = (if (s.reg x).toNat < (s.reg y).toNat then 0 else 1) ∧
      (∀ r, r ≠ x → r ≠ regF → t.reg r = s.reg r) ∧ sameExcept [.regs] s t) ∧
    ∃ t, exec (.subFromReg x y) s = .next t ∧
      (x ≠ regF → (t.reg x).toNat = ((s.reg y).toNat + 256 - (s.reg x).toNat) % 256) ∧
      (t.reg regF).toNat = (if (s.reg y).toNat < (s.reg x).toNat then 0 else 1) ∧
      (∀ r, r ≠ x → r ≠ regF → t.reg r = s.reg r) ∧ sameExcept [.regs] s t

/-- ShiftRight and ShiftLeft (R128, R130): VF gets the bit shifted out, then `V[x]` its shifted value. With
`x = F` the shift of the flag is written last: 0 for ShiftRight, twice the old bit 7 for ShiftLeft, the
spec's decision D1 (log 7). `V[y]` is not read (R74). Frame: D2, log 8. -/
def Obligations.ShiftsGiveHalfAndDouble : Prop :=
  ∀ (x y : Reg) (s : State),
    (∃ t, exec (.shiftRight x y) s = .next t ∧
      (x ≠ regF → (t.reg x).toNat = (s.reg x).toNat / 2 ∧ (t.reg regF).toNat = (s.reg x).toNat % 2) ∧
      (x = regF → t.reg regF = 0) ∧
      (∀ r, r ≠ x → r ≠ regF → t.reg r = s.reg r) ∧ sameExcept [.regs] s t) ∧
    ∃ t, exec (.shiftLeft x y) s = .next t ∧
      (x ≠ regF → (t.reg x).toNat = (s.reg x).toNat * 2 % 256 ∧
        (t.reg regF).toNat = (s.reg x).toNat / 128) ∧
      (x = regF → (t.reg regF).toNat = 2 * ((s.reg regF).toNat / 128)) ∧
      (∀ r, r ≠ x → r ≠ regF → t.reg r = s.reg r) ∧ sameExcept [.regs] s t

/-- Rand (R131, R193; D9, log 4): `V[x]` gets the TICK's random byte masked by `kk`, for every byte.
Frame: D2, log 8. -/
def Obligations.RandMasksTheRandomByte : Prop :=
  ∀ (x : Reg) (kk : Byte) (s : State), ∃ t, exec (.rand x kk) s = .next t ∧
    (∀ k, k < 8 → (t.reg x).getLsbD k = (s.rand.getLsbD k && kk.getLsbD k)) ∧
    (∀ r, r ≠ x → t.reg r = s.reg r) ∧ sameExcept [.regs] s t

/-! ### Index and memory (43_index_and_memory.md) -/

/-- SetIndex (R140). `I` becomes `nnn`, at most 0xFFF; nothing else changes. Frame: D2, log 8. -/
def Obligations.SetIndexLoadsItsAddress : Prop :=
  ∀ (nnn : BitVec 12) (s : State),
    decode (wordNNN 0xA nnn) = .ok (.setIndex nnn) ∧
    ∃ t, exec (.setIndex nnn) s = .next t ∧ t.I.toNat = nnn.toNat ∧ t.I.toNat ≤ 0xFFF ∧
      sameExcept [.index] s t

/-- IncrementI (R141) adds `V[x]` modulo 65536 without a flag; LoadFontChar (R142) sets `I` to
`FONT_START + V[x] * 5`, whatever `V[x]` is. Nothing else changes. Frame: D2, log 8. -/
def Obligations.IndexArithmetic : Prop :=
  ∀ (x : Reg) (s : State),
    (∃ t, exec (.incrementI x) s = .next t ∧ t.I.toNat = (s.I.toNat + (s.reg x).toNat) % 65536 ∧
      sameExcept [.index] s t) ∧
    ∃ t, exec (.loadFontChar x) s = .next t ∧ t.I.toNat = (s.reg x).toNat * 5 ∧ sameExcept [.index] s t

/-- BCD with its three bytes in memory (R143): the decimal digits of `V[x]` at `I`, `I+1`, `I+2`, every other
byte and everything else unchanged. Memory in canonical form is the premise (StepKeepsTheInvariant).
Frame: D2, log 8. -/
def Obligations.BcdStoresTheDigits : Prop :=
  ∀ (x : Reg) (s : State), Memory.wf s.mem → dataAddr s 2 ≤ 0xFFF →
    ∃ t, exec (.bcd x) s = .next t ∧
      (t.byteAt (dataAddr s 0)).toNat = (s.reg x).toNat / 100 ∧
      (t.byteAt (dataAddr s 1)).toNat = (s.reg x).toNat / 10 % 10 ∧
      (t.byteAt (dataAddr s 2)).toNat = (s.reg x).toNat % 10 ∧
      (∀ a, (∀ k, k < 3 → a ≠ dataAddr s k) → t.byteAt a = s.byteAt a) ∧ sameExcept [.memory] s t

/-- LoadIntoRam with its bytes in memory (R144): `V[k]` at `I + k` for `k ≤ x`, every other byte and
everything else unchanged, `I` included. Frame: D2, log 8. -/
def Obligations.LoadIntoRamStoresTheRegisters : Prop :=
  ∀ (x : Reg) (s : State), Memory.wf s.mem → dataAddr s x.val ≤ 0xFFF →
    ∃ t, exec (.loadIntoRam x) s = .next t ∧
      (∀ k : Reg, k ≤ x → t.byteAt (dataAddr s k.val) = s.reg k) ∧
      (∀ a, (∀ k, k ≤ x.val → a ≠ dataAddr s k) → t.byteAt a = s.byteAt a) ∧ sameExcept [.memory] s t

/-- LoadFromRam with its bytes in memory (R145): `V[k]` gets the byte at `I + k` for `k ≤ x`, every other
register and everything else unchanged, `I` and memory included. Frame: D2, log 8. -/
def Obligations.LoadFromRamLoadsTheRegisters : Prop :=
  ∀ (x : Reg) (s : State), dataAddr s x.val ≤ 0xFFF →
    ∃ t, exec (.loadFromRam x) s = .next t ∧
      (∀ k : Reg, k ≤ x → t.reg k = s.byteAt (dataAddr s k.val)) ∧
      (∀ r, x < r → t.reg r = s.reg r) ∧ sameExcept [.regs] s t

/-- Stores past the end of memory (R143, R144, R96; the spec's D4 and D6, logs 10 and 11): the first address
above 0xFFF is latched, the bytes at lower addresses are stored, every other byte and everything else is
unchanged. Frame: D2, log 8. -/
def Obligations.StoresPastTheEndLatchAfterTheLowBytes : Prop :=
  ∀ (x : Reg) (s : State), Memory.wf s.mem →
    (0xFFF < dataAddr s 2 →
      ∃ t, exec (.bcd x) s = .next t ∧
        t.fault = some (.addressOutOfRange (max (dataAddr s 0) 0x1000)) ∧
        (dataAddr s 0 ≤ 0xFFF → (t.byteAt (dataAddr s 0)).toNat = (s.reg x).toNat / 100) ∧
        (dataAddr s 1 ≤ 0xFFF → (t.byteAt (dataAddr s 1)).toNat = (s.reg x).toNat / 10 % 10) ∧
        (∀ a, (∀ k, k < 2 → dataAddr s k ≤ 0xFFF → a ≠ dataAddr s k) → t.byteAt a = s.byteAt a) ∧
        sameExcept [.memory, .latch] s t) ∧
    (0xFFF < dataAddr s x.val →
      ∃ t, exec (.loadIntoRam x) s = .next t ∧
        t.fault = some (.addressOutOfRange (max (dataAddr s 0) 0x1000)) ∧
        (∀ k : Reg, k ≤ x → dataAddr s k.val ≤ 0xFFF → t.byteAt (dataAddr s k.val) = s.reg k) ∧
        (∀ a, (∀ k, k ≤ x.val → dataAddr s k ≤ 0xFFF → a ≠ dataAddr s k) → t.byteAt a = s.byteAt a) ∧
        sameExcept [.memory, .latch] s t)

/-- LoadFromRam past the end of memory (R145, R96; D4, D6, logs 10 and 11): the first address above 0xFFF is
latched, the registers of lower addresses are loaded, the others keep their value. Frame: D2, log 8. -/
def Obligations.LoadPastTheEndLatchesAfterTheLowRegisters : Prop :=
  ∀ (x : Reg) (s : State), 0xFFF < dataAddr s x.val →
    ∃ t, exec (.loadFromRam x) s = .next t ∧
      t.fault = some (.addressOutOfRange (max (dataAddr s 0) 0x1000)) ∧
      (∀ k : Reg, k ≤ x → dataAddr s k.val ≤ 0xFFF → t.reg k = s.byteAt (dataAddr s k.val)) ∧
      (∀ k : Reg, (x < k ∨ 0xFFF < dataAddr s k.val) → t.reg k = s.reg k) ∧
      sameExcept [.regs, .latch] s t

/-- A byte that BCD or LoadIntoRam writes, or that LOAD_ROM places, is what the next fetch of its address
reads (R62, derived), as either half of the fetched word and whichever way `pc` gets there; the other half
is the byte that lies there. The two operations are taken at every `I`: where a later byte of the run raises,
the bytes before it are fetched as stored (D6, log 11). -/
def Obligations.StoredBytesAreFetchedNext : Prop :=
  (∀ (x : Reg) (s : State) (p : Word), Memory.wf s.mem → p.toNat + 1 ≤ 0xFFF →
    (∃ t, exec (.bcd x) s = .next t ∧
      fetch (t.writePc p) = .ok (overlaidWord (bcdDigits (s.reg x)) (dataAddr s 0) s p.toNat)) ∧
    ∃ t, exec (.loadIntoRam x) s = .next t ∧
      fetch (t.writePc p) = .ok (overlaidWord ((regsUpTo x).map s.reg) (dataAddr s 0) s p.toNat)) ∧
  ∀ (bytes : List Byte) (s : State) (p : Word), Memory.wf s.mem → bytes.length ≤ 3584 → p.toNat + 1 ≤ 0xFFF →
    ∃ t, hostCall (.loadRom bytes) s = .next t ∧
      fetch (t.writePc p) = .ok (overlaidWord bytes 0x200 s p.toNat)

/-- Memory in canonical form is data: two such memories that read the same everywhere are equal lists.
The form is the model's own (log 5). -/
def Obligations.CanonicalMemoriesWithEqualReadsAreEqual : Prop :=
  ∀ m m' : List Host.Cell, Memory.wf m → Memory.wf m' →
    (∀ a, Memory.read m a = Memory.read m' a) → m = m'

/-! ### Display (44_display.md) -/

/-- ClearScreen (R151), the word 0x00E0. Every pixel false, VF and everything else unchanged.
Frame: D2, log 8. -/
def Obligations.ClearScreenClearsEveryPixel : Prop :=
  decode 0x00E0 = .ok .clearScreen ∧
  ∀ s : State, ∃ t, exec .clearScreen s = .next t ∧ (∀ c r, t.pixel c r = false) ∧ sameExcept [.screen] s t

/-- DrawSprite with all its rows in memory (R152, R153). A pixel changes exactly when a set bit of the sprite
falls on it. VF ends 1 when such a pixel was lit, else 0; with `n = 0` it keeps its value (the latching and
the `n = 0` case are the spec's decision D3, log 9). No other register, no byte and nothing else changes.
Frame: D2, log 8. -/
def Obligations.DrawSpriteTogglesAndFlagsCollision : Prop :=
  ∀ (x y : Reg) (n : Nat) (s : State), n ≤ 15 → s.I.toNat + n ≤ 0x1000 ∨ n = 0 →
    ∃ t, exec (.drawSprite x y n) s = .next t ∧
      (∀ c r, (t.pixel c r ≠ s.pixel c r ↔ spriteCovers s x y n c r)) ∧
      (n = 0 → t.reg regF = s.reg regF) ∧
      (0 < n → (t.reg regF = 0 ∨ t.reg regF = 1) ∧
        (t.reg regF = 1 ↔ ∃ c r, s.pixel c r = true ∧ spriteCovers s x y n c r)) ∧
      (∀ r, r ≠ regF → t.reg r = s.reg r) ∧ sameExcept [.screen, .regs] s t

/-- DrawSprite past the end of memory (R152, R96; D3, D4, D6, logs 9–11): with only `m < n` rows in memory,
the state is that of the draw of `m` rows, VF's collision value included, and the first missing address
is latched. -/
def Obligations.DrawPastTheEndLatchesAfterTheRowsBefore : Prop :=
  ∀ (x y : Reg) (n m : Nat) (s : State), n ≤ 15 → m = 0x1000 - s.I.toNat → m < n →
    ∃ u, exec (.drawSprite x y m) s = .next u ∧
      exec (.drawSprite x y n) s = .next (u.writeFault (some (.addressOutOfRange (dataAddr s m))))

/-- Drawing the same sprite twice at the same place restores the screen (the source's §8 example); the
coordinates are not in VF, which the first draw writes. -/
def Obligations.DrawingTwiceRestoresTheScreen : Prop :=
  ∀ (x y : Reg) (n : Nat) (s : State), n ≤ 15 → s.I.toNat + n ≤ 0x1000 → x ≠ regF → y ≠ regF →
    ∃ t u, exec (.drawSprite x y n) s = .next t ∧ exec (.drawSprite x y n) t = .next u ∧
      ∀ c r, u.pixel c r = s.pixel c r

/-! ### Keys and timers (45_keys_and_timers.md) -/

/-- SkipIfKeyPressed and SkipIfKeyNotPressed with a key number up to 0xF (R160–R162): 2 is added to `pc`
exactly when the key is pressed (not pressed), and nothing else changes. Frame: D2, log 8. -/
def Obligations.KeySkipsFollowTheKey : Prop :=
  ∀ (x : Reg) (s : State) (k : Fin 16), (s.reg x).toNat = k.val →
    (∃ t, exec (.skipIfKeyPressed x) s = .next t ∧
      t.pc = (if s.keyAt k = true then s.pc + 2 else s.pc) ∧ sameExcept [.pc] s t) ∧
    ∃ t, exec (.skipIfKeyNotPressed x) s = .next t ∧
      t.pc = (if s.keyAt k = true then s.pc else s.pc + 2) ∧ sameExcept [.pc] s t

/-- A key number above 0xF latches KeyIndexOutOfRange(V[x]) and changes nothing else, `pc` included: the
spec's own decision D5 (R160, R177, log 10). Frame: D2, log 8. -/
def Obligations.KeySkipOutOfRangeLatches : Prop :=
  ∀ (x : Reg) (s : State), 0xF < (s.reg x).toNat →
    (∃ t, exec (.skipIfKeyPressed x) s = .next t ∧ t.fault = some (.keyIndexOutOfRange (s.reg x)) ∧
      sameExcept [.latch] s t) ∧
    ∃ t, exec (.skipIfKeyNotPressed x) s = .next t ∧ t.fault = some (.keyIndexOutOfRange (s.reg x)) ∧
      sameExcept [.latch] s t

/-- WaitKey (R164): with a key pressed, the lowest pressed index goes to `V[x]` and nothing else changes;
with none, `pc` goes back by 2 so that the same word runs again, and nothing else changes.
Frame: D2, log 8. -/
def Obligations.WaitKeyTakesTheLowestKeyOrRewinds : Prop :=
  ∀ (x : Reg) (s : State),
    (∀ k : Fin 16, s.keyAt k = true → (∀ j, j < k → s.keyAt j = false) →
      ∃ t, exec (.waitKey x) s = .next t ∧ (t.reg x).toNat = k.val ∧
        (∀ r, r ≠ x → t.reg r = s.reg r) ∧ sameExcept [.regs] s t) ∧
    ((∀ k, s.keyAt k = false) →
      ∃ t, exec (.waitKey x) s = .next t ∧ t.pc = s.pc - 2 ∧ sameExcept [.pc] s t)

/-- GetDelayTimer, SetDelayTimer, SetSoundTimer (R163, R165, R166): one move each, nothing else changes.
Frame: D2, log 8. -/
def Obligations.TimerMoves : Prop :=
  ∀ (x : Reg) (s : State),
    (∃ t, exec (.getDelayTimer x) s = .next t ∧ t.reg x = s.DT ∧ (∀ r, r ≠ x → t.reg r = s.reg r) ∧
      sameExcept [.regs] s t) ∧
    (∃ t, exec (.setDelayTimer x) s = .next t ∧ t.DT = s.reg x ∧ sameExcept [.delay] s t) ∧
    ∃ t, exec (.setSoundTimer x) s = .next t ∧ t.ST = s.reg x ∧ sameExcept [.sound] s t

/-! ### The host's transactions (60_exceptions.md, 70_reset_and_hazards.md) -/

/-- A step is the host's next transaction (R191), and the transactions run one after another (R192): with
calls pending the step is the oldest of them, whichever of the six it is, on the machine without it; with
none pending it is a TICK with the next free random byte. Whatever the transaction does, it leaves the later
calls as they were, RESET included. The list of calls is the model's own form of `schedule` (logs 3, 4, 22). -/
def Obligations.PendingCallsRunInOrder : Prop :=
  (∀ (s : State) (c : HostCall) (rest : List HostCall), s.calls = c :: rest →
    step s = hostCall c (s.writeCalls rest) ∧ ∀ t, step s = .next t → t.calls = rest) ∧
  ∀ s : State, s.calls = [] →
    step s = hostCall (.tick (Config.randByte s.draws)) (s.writeDraws (s.draws + 1)) ∧
    ∀ t, step s = .next t → t.calls = []

/-- R184: TICK_TIMERS. Each timer above 0 falls by one, `play_tone` is true exactly when ST was 1, and
nothing else of the block changes. -/
def Obligations.TickTimersCountsDownAndTones : Prop :=
  ∀ s : State, ∃ t, hostCall .tickTimers s = .next t ∧
    t.DT.toNat = (if 0 < s.DT.toNat then s.DT.toNat - 1 else s.DT.toNat) ∧
    t.ST.toNat = (if 0 < s.ST.toNat then s.ST.toNat - 1 else s.ST.toNat) ∧
    t.reply = .playTone (decide (s.ST.toNat = 1)) ∧ keepsParts [.delay, .sound] s t

/-- R186: "So one countdown from any value v ≥ 1 produces exactly one tone pulse, at its end." The
`k + 1`-st of a run of TICK_TIMERS tones exactly when `k + 1` is the value ST started from. -/
def Obligations.OneCountdownTonesOnceAtItsEnd : Prop :=
  ∀ (s : State) (k : Nat), (tickTimers^[k + 1] s).reply = .playTone (decide (k + 1 = s.ST.toNat)) ∧
    (tickTimers^[k + 1] s).ST.toNat = s.ST.toNat - (k + 1)

/-- KEY (R188) writes the key of its index and no other; an index out of range changes nothing, and there is
no error. That a negative index is out of range too is the model's own reading: R188's pseudocode tests the
upper bound alone (log 20). KEY is the only writer of `keys` (R188), but for RESET, one of the six
transactions (R191), which makes every key false (R41). -/
def Obligations.KeyCallWritesItsKeyOnly : Prop :=
  (∀ (index : Int) (pressed : Bool) (s : State), ∃ t, hostCall (.key index pressed) s = .next t ∧
    (∀ k : Fin 16, t.keyAt k = if (k.val : Int) = index then pressed else s.keyAt k) ∧
    t.reply = .noResult ∧ keepsParts [.keys] s t) ∧
  ∀ (c : HostCall) (s t : State), hostCall c s = .next t → (∃ k, t.keyAt k ≠ s.keyAt k) →
    (∃ index pressed, c = .key index pressed) ∨ c = .reset

/-- LOAD_ROM (R202; the check before any write and the free time of loading are D15, log 14): up to 3584
bytes land from 0x200 on and nothing else changes; a longer ROM writes nothing and latches RomTooLarge. On a
machine already faulted the new fault replaces the latched one, which is the model's own reading (log 21). -/
def Obligations.LoadRomPlacesTheBytesOrFaults : Prop :=
  ∀ (bytes : List Byte) (s : State), Memory.wf s.mem →
    (bytes.length ≤ 3584 → ∃ t, hostCall (.loadRom bytes) s = .next t ∧
      (∀ k, (h : k < bytes.length) → t.byteAt (0x200 + k) = bytes[k]) ∧
      (∀ a, (a < 0x200 ∨ 0x200 + bytes.length ≤ a) → t.byteAt a = s.byteAt a) ∧
      t.reply = .ok ∧ keepsParts [.memory] s t) ∧
    (3584 < bytes.length → ∃ t, hostCall (.loadRom bytes) s = .next t ∧
      t.fault = some (.romTooLarge bytes.length) ∧
      t.reply = .faulted (.romTooLarge bytes.length) ∧ keepsParts [.latch] s t)

/-- R189: FB_READ returns the 2048 booleans, pixel `(c, r)` at index `64*r + c`, and changes no state. -/
def Obligations.FbReadReturnsThePixelsInOrder : Prop :=
  ∀ s : State, ∃ t p, hostCall .fbRead s = .next t ∧ t.reply = .pixels p ∧ p.length = 2048 ∧
    (∀ (c : Fin 64) (r : Fin 32), p[64 * r.val + c.val]? = some (s.pixel c r)) ∧ keepsParts [] s t

/-- R41, R200: RESET answers, from every state, with every element at the value R41 lists: `pc` at 0x200,
`FONT_TABLE` (the open parameter `Config.fontByte`, log 5) at 0x000–0x04F, everything else zero, false or
none; it has no result and cannot fault. -/
def Obligations.ResetBuildsTheListedState : Prop :=
  ∀ s : State, ∃ t, hostCall .reset s = .next t ∧ t.reply = .noResult ∧
    t.pc = 0x200 ∧ (∀ r, t.reg r = 0) ∧ t.I = 0 ∧ (∀ j, t.stackAt j = 0) ∧ t.sp = 0 ∧
    t.DT = 0 ∧ t.ST = 0 ∧ (∀ k, t.keyAt k = false) ∧ (∀ c r, t.pixel c r = false) ∧
    (∀ a, a < 0x50 → t.byteAt a = Config.fontByte a) ∧
    (∀ a, 0x50 ≤ a → a ≤ 0xFFF → t.byteAt a = 0) ∧ t.fault = none

/-! ### The invariant -/

/-- The state after reset meets the invariant (R41, R45, R93). -/
def Obligations.ResetMeetsTheInvariant : Prop := State.reset.Inv

/-- Every step, whatever transaction it is, keeps the invariant: canonical memory inside the 4096 bytes, `pc`
at most 0x10FE, live stack entries at most 0x1000 (R93, derived), and a latched fault that its own
condition raises (R170–R177). -/
def Obligations.StepKeepsTheInvariant : Prop :=
  ∀ s t : State, s.Inv → step s = .next t → t.Inv
end

