-- ==== Sys2Proof/Laws/Decode.lean ====
section
/-! SUPPORT. The decode table in arithmetic: what each mask keeps of a word, the fields of an encoded word,
and what the decoder answers once a row selects (30_encoding.md R66, R70, R73). -/

namespace Sys2Proof

theorem and_split (a b c d k : Nat) (hb : b < 2 ^ k) (hd : d < 2 ^ k) :
    (2 ^ k * a + b) &&& (2 ^ k * c + d) = 2 ^ k * (a &&& c) + (b &&& d) := by
  apply Nat.eq_of_testBit_eq
  intro j
  rw [Nat.testBit_and, Nat.testBit_two_pow_mul_add _ hb, Nat.testBit_two_pow_mul_add _ hd,
    Nat.testBit_two_pow_mul_add _ (Nat.and_lt_two_pow b hd)]
  split <;> simp

theorem word_lt (w : Word) : w.toNat < 65536 := w.isLt

theorem mask_FFFF (w : Word) : (w &&& 0xFFFF).toNat = w.toNat := by
  rw [BitVec.toNat_and]
  exact (Nat.and_two_pow_sub_one_eq_mod w.toNat 16).trans (Nat.mod_eq_of_lt w.isLt)

theorem mask_F000 (w : Word) : (w &&& 0xF000).toNat = w.toNat / 4096 * 4096 := by
  have h := and_split (w.toNat / 4096) (w.toNat % 4096) 15 0 12 (Nat.mod_lt _ (by decide)) (by decide)
  have e : 2 ^ 12 * (w.toNat / 4096) + w.toNat % 4096 = w.toNat := Nat.div_add_mod _ _
  rw [e, Nat.and_two_pow_sub_one_eq_mod (w.toNat / 4096) 4] at h
  have := word_lt w
  rw [BitVec.toNat_and]
  refine h.trans ?_
  simp only [Nat.and_zero]
  omega

theorem mask_F00F (w : Word) : (w &&& 0xF00F).toNat = w.toNat / 4096 * 4096 + w.toNat % 16 := by
  have h := and_split (w.toNat / 4096) (w.toNat % 4096) 15 15 12 (Nat.mod_lt _ (by decide)) (by decide)
  have e : 2 ^ 12 * (w.toNat / 4096) + w.toNat % 4096 = w.toNat := Nat.div_add_mod _ _
  rw [e, Nat.and_two_pow_sub_one_eq_mod (w.toNat / 4096) 4,
    Nat.and_two_pow_sub_one_eq_mod (w.toNat % 4096) 4] at h
  have := word_lt w
  rw [BitVec.toNat_and]
  refine h.trans ?_
  omega

theorem mask_F0FF (w : Word) : (w &&& 0xF0FF).toNat = w.toNat / 4096 * 4096 + w.toNat % 256 := by
  have h := and_split (w.toNat / 4096) (w.toNat % 4096) 15 255 12 (Nat.mod_lt _ (by decide)) (by decide)
  have e : 2 ^ 12 * (w.toNat / 4096) + w.toNat % 4096 = w.toNat := Nat.div_add_mod _ _
  rw [e, Nat.and_two_pow_sub_one_eq_mod (w.toNat / 4096) 4,
    Nat.and_two_pow_sub_one_eq_mod (w.toNat % 4096) 8] at h
  have := word_lt w
  rw [BitVec.toNat_and]
  refine h.trans ?_
  omega

theorem selects_iff (r : Row) (w : Word) : r.selects w = true ↔ (w &&& r.mask).toNat = r.pattern.toNat := by
  simp [Row.selects, BitVec.toNat_eq]

/-- Two rows of the table that select the same word are the same row (R73). -/
theorem table_disjoint : decodeTable.Pairwise (fun r q =>
    (r.pattern ^^^ q.pattern) &&& (r.mask &&& q.mask) ≠ 0) := by decide

theorem not_both_select (r q : Row) (h : (r.pattern ^^^ q.pattern) &&& (r.mask &&& q.mask) ≠ 0) (w : Word)
    (hr : r.selects w = true) (hq : q.selects w = true) : False := by
  apply h
  simp only [Row.selects, beq_iff_eq] at hr hq
  rw [← hr, ← hq]
  ext i hi
  cases hw : w[i] <;> cases hm : r.mask[i] <;> cases hn : q.mask[i] <;> simp [hw, hm, hn]

/-- Once a row of the table selects `w`, the decoder answers with that row. -/
theorem decode_of_selects {r : Row} (hr : r ∈ decodeTable) {w : Word} (h : r.selects w = true) :
    decode w = .ok (r.build w) := by
  obtain ⟨as, bs, hab⟩ := List.append_of_mem hr
  have hp := table_disjoint
  rw [hab] at hp
  have : decodeTable.find? (fun r => r.selects w) = some r := by
    rw [List.find?_eq_some_iff_append]
    refine ⟨h, as, bs, hab, fun q hq => ?_⟩
    by_contra hs
    exact not_both_select q r ((List.pairwise_append.1 hp).2.2 q hq r (by simp)) w (by simpa using hs) h
  rw [decode, this]

theorem decode_of_none {w : Word} (h : ∀ r ∈ decodeTable, r.selects w = false) :
    decode w = .error (.invalid w) := by
  have : decodeTable.find? (fun r => r.selects w) = none := by
    rw [List.find?_eq_none]; intro r hr; simp [h r hr]
  rw [decode, this]

/-- Everything the decoder can answer. -/
theorem decode_cases (w : Word) :
    (∃ r ∈ decodeTable, r.selects w = true ∧ decode w = .ok (r.build w)) ∨
    ((∀ r ∈ decodeTable, r.selects w = false) ∧ decode w = .error (.invalid w)) := by
  by_cases h : ∃ r ∈ decodeTable, r.selects w = true
  · obtain ⟨r, hr, hs⟩ := h
    exact .inl ⟨r, hr, hs, decode_of_selects hr hs⟩
  · have : ∀ r ∈ decodeTable, r.selects w = false := fun r hr => by
      by_contra hs; exact h ⟨r, hr, by simpa using hs⟩
    exact .inr ⟨this, decode_of_none this⟩

/-! ### The fields of an encoded word -/

section
variable (op : Nat) (x y : Reg) (kk : Byte) (nnn : BitVec 12) (n low : Nat)

theorem wordNNN_toNat (ho : op < 16) : (wordNNN op nnn).toNat = op * 4096 + nnn.toNat := by
  have := nnn.isLt; simp only [wordNNN, BitVec.toNat_ofNat]; omega

theorem wordXKK_toNat (ho : op < 16) : (wordXKK op x kk).toNat = op * 4096 + x.val * 256 + kk.toNat := by
  have := kk.isLt; have := x.isLt; simp only [wordXKK, BitVec.toNat_ofNat]; omega

theorem wordXYN_toNat (ho : op < 16) (hn : n < 16) :
    (wordXYN op x y n).toNat = op * 4096 + x.val * 256 + y.val * 16 + n := by
  have := y.isLt; have := x.isLt; simp only [wordXYN, BitVec.toNat_ofNat]; omega

theorem wordXOO_toNat (ho : op < 16) (hl : low < 256) :
    (wordXOO op x low).toNat = op * 4096 + x.val * 256 + low := by
  have := x.isLt; simp only [wordXOO, BitVec.toNat_ofNat]; omega

theorem fieldNNN_eq (w : Word) : (fieldNNN w).toNat = w.toNat % 4096 := by
  simp [fieldNNN, bits]

theorem fieldKK_eq (w : Word) : (fieldKK w).toNat = w.toNat % 256 := by
  simp [fieldKK, bits]

theorem fieldX_val (w : Word) : (fieldX w).val = w.toNat / 256 % 16 := rfl

theorem fieldY_val (w : Word) : (fieldY w).val = w.toNat / 16 % 16 := rfl

theorem fieldN_eq (w : Word) : fieldN w = w.toNat % 16 := by
  simp [fieldN, bits]

@[simp] theorem fieldNNN_wordNNN (ho : op < 16) : fieldNNN (wordNNN op nnn) = nnn := by
  apply BitVec.eq_of_toNat_eq; rw [fieldNNN_eq, wordNNN_toNat _ _ ho]; have := nnn.isLt; omega

@[simp] theorem fieldX_wordXKK (ho : op < 16) : fieldX (wordXKK op x kk) = x := by
  apply Fin.ext; rw [fieldX_val, wordXKK_toNat _ _ _ ho]; have := kk.isLt; have := x.isLt; omega

@[simp] theorem fieldKK_wordXKK (ho : op < 16) : fieldKK (wordXKK op x kk) = kk := by
  apply BitVec.eq_of_toNat_eq; rw [fieldKK_eq, wordXKK_toNat _ _ _ ho]; have := kk.isLt; omega

@[simp] theorem fieldX_wordXYN (ho : op < 16) (hn : n < 16) : fieldX (wordXYN op x y n) = x := by
  apply Fin.ext; rw [fieldX_val, wordXYN_toNat _ _ _ _ ho hn]; have := y.isLt; have := x.isLt; omega

@[simp] theorem fieldY_wordXYN (ho : op < 16) (hn : n < 16) : fieldY (wordXYN op x y n) = y := by
  apply Fin.ext; rw [fieldY_val, wordXYN_toNat _ _ _ _ ho hn]; have := y.isLt; have := x.isLt; omega

@[simp] theorem fieldN_wordXYN (ho : op < 16) (hn : n < 16) : fieldN (wordXYN op x y n) = n := by
  rw [fieldN_eq, wordXYN_toNat _ _ _ _ ho hn]; omega

@[simp] theorem fieldX_wordXOO (ho : op < 16) (hl : low < 256) : fieldX (wordXOO op x low) = x := by
  apply Fin.ext; rw [fieldX_val, wordXOO_toNat _ _ _ ho hl]; have := x.isLt; omega

end

/-! ### The two bytes of a word -/

theorem wordOfBytes_toNat (hi lo : Byte) : (wordOfBytes hi lo).toNat = hi.toNat * 256 + lo.toNat := by
  have := hi.isLt; have := lo.isLt; simp only [wordOfBytes, BitVec.toNat_ofNat]; omega

/-- A word is the big-endian combination of its two bytes (R51). -/
@[simp] theorem wordOfBytes_bytes (w : Word) : wordOfBytes (highByte w) (lowByte w) = w := by
  apply BitVec.eq_of_toNat_eq
  rw [wordOfBytes_toNat]
  have := word_lt w
  simp only [highByte, lowByte, bits, BitVec.toNat_ofNat]
  omega

end Sys2Proof
end

