-- ==== Sys2Proof/Laws/State.lean ====
section
/-! SUPPORT. One lemma per field of State per update, true by rfl, and what each view of the state reads
after each update. -/

namespace Sys2Proof.Machine.State

/-! ### writePc -/

@[simp] theorem writePc_pc (s : State) (v : Word) : (s.writePc v).pc = v := rfl
@[simp] theorem writePc_V (s : State) (v : Word) : (s.writePc v).V = s.V := rfl
@[simp] theorem writePc_I (s : State) (v : Word) : (s.writePc v).I = s.I := rfl
@[simp] theorem writePc_stack (s : State) (v : Word) : (s.writePc v).stack = s.stack := rfl
@[simp] theorem writePc_sp (s : State) (v : Word) : (s.writePc v).sp = s.sp := rfl
@[simp] theorem writePc_keys (s : State) (v : Word) : (s.writePc v).keys = s.keys := rfl
@[simp] theorem writePc_DT (s : State) (v : Word) : (s.writePc v).DT = s.DT := rfl
@[simp] theorem writePc_ST (s : State) (v : Word) : (s.writePc v).ST = s.ST := rfl
@[simp] theorem writePc_fb (s : State) (v : Word) : (s.writePc v).fb = s.fb := rfl
@[simp] theorem writePc_mem (s : State) (v : Word) : (s.writePc v).mem = s.mem := rfl
@[simp] theorem writePc_fault (s : State) (v : Word) : (s.writePc v).fault = s.fault := rfl
@[simp] theorem writePc_calls (s : State) (v : Word) : (s.writePc v).calls = s.calls := rfl
@[simp] theorem writePc_rand (s : State) (v : Word) : (s.writePc v).rand = s.rand := rfl
@[simp] theorem writePc_draws (s : State) (v : Word) : (s.writePc v).draws = s.draws := rfl
@[simp] theorem writePc_reply (s : State) (v : Word) : (s.writePc v).reply = s.reply := rfl
@[simp] theorem writePc_reg (s : State) (v : Word) (q : Reg) : (s.writePc v).reg q = s.reg q := rfl
@[simp] theorem writePc_stackAt (s : State) (v : Word) (q : Fin 16) : (s.writePc v).stackAt q = s.stackAt q := rfl
@[simp] theorem writePc_keyAt (s : State) (v : Word) (q : Fin 16) : (s.writePc v).keyAt q = s.keyAt q := rfl
@[simp] theorem writePc_pixel (s : State) (v : Word) (c : Fin 64) (q : Fin 32) : (s.writePc v).pixel c q = s.pixel c q := rfl
@[simp] theorem writePc_byteAt (s : State) (v : Word) (a : Nat) : (s.writePc v).byteAt a = s.byteAt a := rfl

/-! ### writeV -/

@[simp] theorem writeV_pc (s : State) (r : Reg) (v : Byte) : (s.writeV r v).pc = s.pc := rfl
@[simp] theorem writeV_V (s : State) (r : Reg) (v : Byte) : (s.writeV r v).V = s.V.set r v := rfl
@[simp] theorem writeV_I (s : State) (r : Reg) (v : Byte) : (s.writeV r v).I = s.I := rfl
@[simp] theorem writeV_stack (s : State) (r : Reg) (v : Byte) : (s.writeV r v).stack = s.stack := rfl
@[simp] theorem writeV_sp (s : State) (r : Reg) (v : Byte) : (s.writeV r v).sp = s.sp := rfl
@[simp] theorem writeV_keys (s : State) (r : Reg) (v : Byte) : (s.writeV r v).keys = s.keys := rfl
@[simp] theorem writeV_DT (s : State) (r : Reg) (v : Byte) : (s.writeV r v).DT = s.DT := rfl
@[simp] theorem writeV_ST (s : State) (r : Reg) (v : Byte) : (s.writeV r v).ST = s.ST := rfl
@[simp] theorem writeV_fb (s : State) (r : Reg) (v : Byte) : (s.writeV r v).fb = s.fb := rfl
@[simp] theorem writeV_mem (s : State) (r : Reg) (v : Byte) : (s.writeV r v).mem = s.mem := rfl
@[simp] theorem writeV_fault (s : State) (r : Reg) (v : Byte) : (s.writeV r v).fault = s.fault := rfl
@[simp] theorem writeV_calls (s : State) (r : Reg) (v : Byte) : (s.writeV r v).calls = s.calls := rfl
@[simp] theorem writeV_rand (s : State) (r : Reg) (v : Byte) : (s.writeV r v).rand = s.rand := rfl
@[simp] theorem writeV_draws (s : State) (r : Reg) (v : Byte) : (s.writeV r v).draws = s.draws := rfl
@[simp] theorem writeV_reply (s : State) (r : Reg) (v : Byte) : (s.writeV r v).reply = s.reply := rfl
@[simp] theorem writeV_stackAt (s : State) (r : Reg) (v : Byte) (q : Fin 16) : (s.writeV r v).stackAt q = s.stackAt q := rfl
@[simp] theorem writeV_keyAt (s : State) (r : Reg) (v : Byte) (q : Fin 16) : (s.writeV r v).keyAt q = s.keyAt q := rfl
@[simp] theorem writeV_pixel (s : State) (r : Reg) (v : Byte) (c : Fin 64) (q : Fin 32) : (s.writeV r v).pixel c q = s.pixel c q := rfl
@[simp] theorem writeV_byteAt (s : State) (r : Reg) (v : Byte) (a : Nat) : (s.writeV r v).byteAt a = s.byteAt a := rfl

/-! ### writeVF -/

@[simp] theorem writeVF_pc (s : State) (v : Byte) : (s.writeVF v).pc = s.pc := rfl
@[simp] theorem writeVF_V (s : State) (v : Byte) : (s.writeVF v).V = s.V.set regF v := rfl
@[simp] theorem writeVF_I (s : State) (v : Byte) : (s.writeVF v).I = s.I := rfl
@[simp] theorem writeVF_stack (s : State) (v : Byte) : (s.writeVF v).stack = s.stack := rfl
@[simp] theorem writeVF_sp (s : State) (v : Byte) : (s.writeVF v).sp = s.sp := rfl
@[simp] theorem writeVF_keys (s : State) (v : Byte) : (s.writeVF v).keys = s.keys := rfl
@[simp] theorem writeVF_DT (s : State) (v : Byte) : (s.writeVF v).DT = s.DT := rfl
@[simp] theorem writeVF_ST (s : State) (v : Byte) : (s.writeVF v).ST = s.ST := rfl
@[simp] theorem writeVF_fb (s : State) (v : Byte) : (s.writeVF v).fb = s.fb := rfl
@[simp] theorem writeVF_mem (s : State) (v : Byte) : (s.writeVF v).mem = s.mem := rfl
@[simp] theorem writeVF_fault (s : State) (v : Byte) : (s.writeVF v).fault = s.fault := rfl
@[simp] theorem writeVF_calls (s : State) (v : Byte) : (s.writeVF v).calls = s.calls := rfl
@[simp] theorem writeVF_rand (s : State) (v : Byte) : (s.writeVF v).rand = s.rand := rfl
@[simp] theorem writeVF_draws (s : State) (v : Byte) : (s.writeVF v).draws = s.draws := rfl
@[simp] theorem writeVF_reply (s : State) (v : Byte) : (s.writeVF v).reply = s.reply := rfl
@[simp] theorem writeVF_stackAt (s : State) (v : Byte) (q : Fin 16) : (s.writeVF v).stackAt q = s.stackAt q := rfl
@[simp] theorem writeVF_keyAt (s : State) (v : Byte) (q : Fin 16) : (s.writeVF v).keyAt q = s.keyAt q := rfl
@[simp] theorem writeVF_pixel (s : State) (v : Byte) (c : Fin 64) (q : Fin 32) : (s.writeVF v).pixel c q = s.pixel c q := rfl
@[simp] theorem writeVF_byteAt (s : State) (v : Byte) (a : Nat) : (s.writeVF v).byteAt a = s.byteAt a := rfl

/-! ### writeI -/

@[simp] theorem writeI_pc (s : State) (v : Word) : (s.writeI v).pc = s.pc := rfl
@[simp] theorem writeI_V (s : State) (v : Word) : (s.writeI v).V = s.V := rfl
@[simp] theorem writeI_I (s : State) (v : Word) : (s.writeI v).I = v := rfl
@[simp] theorem writeI_stack (s : State) (v : Word) : (s.writeI v).stack = s.stack := rfl
@[simp] theorem writeI_sp (s : State) (v : Word) : (s.writeI v).sp = s.sp := rfl
@[simp] theorem writeI_keys (s : State) (v : Word) : (s.writeI v).keys = s.keys := rfl
@[simp] theorem writeI_DT (s : State) (v : Word) : (s.writeI v).DT = s.DT := rfl
@[simp] theorem writeI_ST (s : State) (v : Word) : (s.writeI v).ST = s.ST := rfl
@[simp] theorem writeI_fb (s : State) (v : Word) : (s.writeI v).fb = s.fb := rfl
@[simp] theorem writeI_mem (s : State) (v : Word) : (s.writeI v).mem = s.mem := rfl
@[simp] theorem writeI_fault (s : State) (v : Word) : (s.writeI v).fault = s.fault := rfl
@[simp] theorem writeI_calls (s : State) (v : Word) : (s.writeI v).calls = s.calls := rfl
@[simp] theorem writeI_rand (s : State) (v : Word) : (s.writeI v).rand = s.rand := rfl
@[simp] theorem writeI_draws (s : State) (v : Word) : (s.writeI v).draws = s.draws := rfl
@[simp] theorem writeI_reply (s : State) (v : Word) : (s.writeI v).reply = s.reply := rfl
@[simp] theorem writeI_reg (s : State) (v : Word) (q : Reg) : (s.writeI v).reg q = s.reg q := rfl
@[simp] theorem writeI_stackAt (s : State) (v : Word) (q : Fin 16) : (s.writeI v).stackAt q = s.stackAt q := rfl
@[simp] theorem writeI_keyAt (s : State) (v : Word) (q : Fin 16) : (s.writeI v).keyAt q = s.keyAt q := rfl
@[simp] theorem writeI_pixel (s : State) (v : Word) (c : Fin 64) (q : Fin 32) : (s.writeI v).pixel c q = s.pixel c q := rfl
@[simp] theorem writeI_byteAt (s : State) (v : Word) (a : Nat) : (s.writeI v).byteAt a = s.byteAt a := rfl

/-! ### writeStack -/

@[simp] theorem writeStack_pc (s : State) (j : Fin 16) (v : Word) : (s.writeStack j v).pc = s.pc := rfl
@[simp] theorem writeStack_V (s : State) (j : Fin 16) (v : Word) : (s.writeStack j v).V = s.V := rfl
@[simp] theorem writeStack_I (s : State) (j : Fin 16) (v : Word) : (s.writeStack j v).I = s.I := rfl
@[simp] theorem writeStack_stack (s : State) (j : Fin 16) (v : Word) : (s.writeStack j v).stack = s.stack.set j v := rfl
@[simp] theorem writeStack_sp (s : State) (j : Fin 16) (v : Word) : (s.writeStack j v).sp = s.sp := rfl
@[simp] theorem writeStack_keys (s : State) (j : Fin 16) (v : Word) : (s.writeStack j v).keys = s.keys := rfl
@[simp] theorem writeStack_DT (s : State) (j : Fin 16) (v : Word) : (s.writeStack j v).DT = s.DT := rfl
@[simp] theorem writeStack_ST (s : State) (j : Fin 16) (v : Word) : (s.writeStack j v).ST = s.ST := rfl
@[simp] theorem writeStack_fb (s : State) (j : Fin 16) (v : Word) : (s.writeStack j v).fb = s.fb := rfl
@[simp] theorem writeStack_mem (s : State) (j : Fin 16) (v : Word) : (s.writeStack j v).mem = s.mem := rfl
@[simp] theorem writeStack_fault (s : State) (j : Fin 16) (v : Word) : (s.writeStack j v).fault = s.fault := rfl
@[simp] theorem writeStack_calls (s : State) (j : Fin 16) (v : Word) : (s.writeStack j v).calls = s.calls := rfl
@[simp] theorem writeStack_rand (s : State) (j : Fin 16) (v : Word) : (s.writeStack j v).rand = s.rand := rfl
@[simp] theorem writeStack_draws (s : State) (j : Fin 16) (v : Word) : (s.writeStack j v).draws = s.draws := rfl
@[simp] theorem writeStack_reply (s : State) (j : Fin 16) (v : Word) : (s.writeStack j v).reply = s.reply := rfl
@[simp] theorem writeStack_reg (s : State) (j : Fin 16) (v : Word) (q : Reg) : (s.writeStack j v).reg q = s.reg q := rfl
@[simp] theorem writeStack_keyAt (s : State) (j : Fin 16) (v : Word) (q : Fin 16) : (s.writeStack j v).keyAt q = s.keyAt q := rfl
@[simp] theorem writeStack_pixel (s : State) (j : Fin 16) (v : Word) (c : Fin 64) (q : Fin 32) : (s.writeStack j v).pixel c q = s.pixel c q := rfl
@[simp] theorem writeStack_byteAt (s : State) (j : Fin 16) (v : Word) (a : Nat) : (s.writeStack j v).byteAt a = s.byteAt a := rfl

/-! ### writeSp -/

@[simp] theorem writeSp_pc (s : State) (n : Fin 17) : (s.writeSp n).pc = s.pc := rfl
@[simp] theorem writeSp_V (s : State) (n : Fin 17) : (s.writeSp n).V = s.V := rfl
@[simp] theorem writeSp_I (s : State) (n : Fin 17) : (s.writeSp n).I = s.I := rfl
@[simp] theorem writeSp_stack (s : State) (n : Fin 17) : (s.writeSp n).stack = s.stack := rfl
@[simp] theorem writeSp_sp (s : State) (n : Fin 17) : (s.writeSp n).sp = n := rfl
@[simp] theorem writeSp_keys (s : State) (n : Fin 17) : (s.writeSp n).keys = s.keys := rfl
@[simp] theorem writeSp_DT (s : State) (n : Fin 17) : (s.writeSp n).DT = s.DT := rfl
@[simp] theorem writeSp_ST (s : State) (n : Fin 17) : (s.writeSp n).ST = s.ST := rfl
@[simp] theorem writeSp_fb (s : State) (n : Fin 17) : (s.writeSp n).fb = s.fb := rfl
@[simp] theorem writeSp_mem (s : State) (n : Fin 17) : (s.writeSp n).mem = s.mem := rfl
@[simp] theorem writeSp_fault (s : State) (n : Fin 17) : (s.writeSp n).fault = s.fault := rfl
@[simp] theorem writeSp_calls (s : State) (n : Fin 17) : (s.writeSp n).calls = s.calls := rfl
@[simp] theorem writeSp_rand (s : State) (n : Fin 17) : (s.writeSp n).rand = s.rand := rfl
@[simp] theorem writeSp_draws (s : State) (n : Fin 17) : (s.writeSp n).draws = s.draws := rfl
@[simp] theorem writeSp_reply (s : State) (n : Fin 17) : (s.writeSp n).reply = s.reply := rfl
@[simp] theorem writeSp_reg (s : State) (n : Fin 17) (q : Reg) : (s.writeSp n).reg q = s.reg q := rfl
@[simp] theorem writeSp_stackAt (s : State) (n : Fin 17) (q : Fin 16) : (s.writeSp n).stackAt q = s.stackAt q := rfl
@[simp] theorem writeSp_keyAt (s : State) (n : Fin 17) (q : Fin 16) : (s.writeSp n).keyAt q = s.keyAt q := rfl
@[simp] theorem writeSp_pixel (s : State) (n : Fin 17) (c : Fin 64) (q : Fin 32) : (s.writeSp n).pixel c q = s.pixel c q := rfl
@[simp] theorem writeSp_byteAt (s : State) (n : Fin 17) (a : Nat) : (s.writeSp n).byteAt a = s.byteAt a := rfl

/-! ### writeKey -/

@[simp] theorem writeKey_pc (s : State) (k : Fin 16) (b : Bool) : (s.writeKey k b).pc = s.pc := rfl
@[simp] theorem writeKey_V (s : State) (k : Fin 16) (b : Bool) : (s.writeKey k b).V = s.V := rfl
@[simp] theorem writeKey_I (s : State) (k : Fin 16) (b : Bool) : (s.writeKey k b).I = s.I := rfl
@[simp] theorem writeKey_stack (s : State) (k : Fin 16) (b : Bool) : (s.writeKey k b).stack = s.stack := rfl
@[simp] theorem writeKey_sp (s : State) (k : Fin 16) (b : Bool) : (s.writeKey k b).sp = s.sp := rfl
@[simp] theorem writeKey_keys (s : State) (k : Fin 16) (b : Bool) : (s.writeKey k b).keys = s.keys.set k b := rfl
@[simp] theorem writeKey_DT (s : State) (k : Fin 16) (b : Bool) : (s.writeKey k b).DT = s.DT := rfl
@[simp] theorem writeKey_ST (s : State) (k : Fin 16) (b : Bool) : (s.writeKey k b).ST = s.ST := rfl
@[simp] theorem writeKey_fb (s : State) (k : Fin 16) (b : Bool) : (s.writeKey k b).fb = s.fb := rfl
@[simp] theorem writeKey_mem (s : State) (k : Fin 16) (b : Bool) : (s.writeKey k b).mem = s.mem := rfl
@[simp] theorem writeKey_fault (s : State) (k : Fin 16) (b : Bool) : (s.writeKey k b).fault = s.fault := rfl
@[simp] theorem writeKey_calls (s : State) (k : Fin 16) (b : Bool) : (s.writeKey k b).calls = s.calls := rfl
@[simp] theorem writeKey_rand (s : State) (k : Fin 16) (b : Bool) : (s.writeKey k b).rand = s.rand := rfl
@[simp] theorem writeKey_draws (s : State) (k : Fin 16) (b : Bool) : (s.writeKey k b).draws = s.draws := rfl
@[simp] theorem writeKey_reply (s : State) (k : Fin 16) (b : Bool) : (s.writeKey k b).reply = s.reply := rfl
@[simp] theorem writeKey_reg (s : State) (k : Fin 16) (b : Bool) (q : Reg) : (s.writeKey k b).reg q = s.reg q := rfl
@[simp] theorem writeKey_stackAt (s : State) (k : Fin 16) (b : Bool) (q : Fin 16) : (s.writeKey k b).stackAt q = s.stackAt q := rfl
@[simp] theorem writeKey_pixel (s : State) (k : Fin 16) (b : Bool) (c : Fin 64) (q : Fin 32) : (s.writeKey k b).pixel c q = s.pixel c q := rfl
@[simp] theorem writeKey_byteAt (s : State) (k : Fin 16) (b : Bool) (a : Nat) : (s.writeKey k b).byteAt a = s.byteAt a := rfl

/-! ### writeDT -/

@[simp] theorem writeDT_pc (s : State) (v : Byte) : (s.writeDT v).pc = s.pc := rfl
@[simp] theorem writeDT_V (s : State) (v : Byte) : (s.writeDT v).V = s.V := rfl
@[simp] theorem writeDT_I (s : State) (v : Byte) : (s.writeDT v).I = s.I := rfl
@[simp] theorem writeDT_stack (s : State) (v : Byte) : (s.writeDT v).stack = s.stack := rfl
@[simp] theorem writeDT_sp (s : State) (v : Byte) : (s.writeDT v).sp = s.sp := rfl
@[simp] theorem writeDT_keys (s : State) (v : Byte) : (s.writeDT v).keys = s.keys := rfl
@[simp] theorem writeDT_DT (s : State) (v : Byte) : (s.writeDT v).DT = v := rfl
@[simp] theorem writeDT_ST (s : State) (v : Byte) : (s.writeDT v).ST = s.ST := rfl
@[simp] theorem writeDT_fb (s : State) (v : Byte) : (s.writeDT v).fb = s.fb := rfl
@[simp] theorem writeDT_mem (s : State) (v : Byte) : (s.writeDT v).mem = s.mem := rfl
@[simp] theorem writeDT_fault (s : State) (v : Byte) : (s.writeDT v).fault = s.fault := rfl
@[simp] theorem writeDT_calls (s : State) (v : Byte) : (s.writeDT v).calls = s.calls := rfl
@[simp] theorem writeDT_rand (s : State) (v : Byte) : (s.writeDT v).rand = s.rand := rfl
@[simp] theorem writeDT_draws (s : State) (v : Byte) : (s.writeDT v).draws = s.draws := rfl
@[simp] theorem writeDT_reply (s : State) (v : Byte) : (s.writeDT v).reply = s.reply := rfl
@[simp] theorem writeDT_reg (s : State) (v : Byte) (q : Reg) : (s.writeDT v).reg q = s.reg q := rfl
@[simp] theorem writeDT_stackAt (s : State) (v : Byte) (q : Fin 16) : (s.writeDT v).stackAt q = s.stackAt q := rfl
@[simp] theorem writeDT_keyAt (s : State) (v : Byte) (q : Fin 16) : (s.writeDT v).keyAt q = s.keyAt q := rfl
@[simp] theorem writeDT_pixel (s : State) (v : Byte) (c : Fin 64) (q : Fin 32) : (s.writeDT v).pixel c q = s.pixel c q := rfl
@[simp] theorem writeDT_byteAt (s : State) (v : Byte) (a : Nat) : (s.writeDT v).byteAt a = s.byteAt a := rfl

/-! ### writeST -/

@[simp] theorem writeST_pc (s : State) (v : Byte) : (s.writeST v).pc = s.pc := rfl
@[simp] theorem writeST_V (s : State) (v : Byte) : (s.writeST v).V = s.V := rfl
@[simp] theorem writeST_I (s : State) (v : Byte) : (s.writeST v).I = s.I := rfl
@[simp] theorem writeST_stack (s : State) (v : Byte) : (s.writeST v).stack = s.stack := rfl
@[simp] theorem writeST_sp (s : State) (v : Byte) : (s.writeST v).sp = s.sp := rfl
@[simp] theorem writeST_keys (s : State) (v : Byte) : (s.writeST v).keys = s.keys := rfl
@[simp] theorem writeST_DT (s : State) (v : Byte) : (s.writeST v).DT = s.DT := rfl
@[simp] theorem writeST_ST (s : State) (v : Byte) : (s.writeST v).ST = v := rfl
@[simp] theorem writeST_fb (s : State) (v : Byte) : (s.writeST v).fb = s.fb := rfl
@[simp] theorem writeST_mem (s : State) (v : Byte) : (s.writeST v).mem = s.mem := rfl
@[simp] theorem writeST_fault (s : State) (v : Byte) : (s.writeST v).fault = s.fault := rfl
@[simp] theorem writeST_calls (s : State) (v : Byte) : (s.writeST v).calls = s.calls := rfl
@[simp] theorem writeST_rand (s : State) (v : Byte) : (s.writeST v).rand = s.rand := rfl
@[simp] theorem writeST_draws (s : State) (v : Byte) : (s.writeST v).draws = s.draws := rfl
@[simp] theorem writeST_reply (s : State) (v : Byte) : (s.writeST v).reply = s.reply := rfl
@[simp] theorem writeST_reg (s : State) (v : Byte) (q : Reg) : (s.writeST v).reg q = s.reg q := rfl
@[simp] theorem writeST_stackAt (s : State) (v : Byte) (q : Fin 16) : (s.writeST v).stackAt q = s.stackAt q := rfl
@[simp] theorem writeST_keyAt (s : State) (v : Byte) (q : Fin 16) : (s.writeST v).keyAt q = s.keyAt q := rfl
@[simp] theorem writeST_pixel (s : State) (v : Byte) (c : Fin 64) (q : Fin 32) : (s.writeST v).pixel c q = s.pixel c q := rfl
@[simp] theorem writeST_byteAt (s : State) (v : Byte) (a : Nat) : (s.writeST v).byteAt a = s.byteAt a := rfl

/-! ### writeFb -/

@[simp] theorem writeFb_pc (s : State) (v : Framebuffer) : (s.writeFb v).pc = s.pc := rfl
@[simp] theorem writeFb_V (s : State) (v : Framebuffer) : (s.writeFb v).V = s.V := rfl
@[simp] theorem writeFb_I (s : State) (v : Framebuffer) : (s.writeFb v).I = s.I := rfl
@[simp] theorem writeFb_stack (s : State) (v : Framebuffer) : (s.writeFb v).stack = s.stack := rfl
@[simp] theorem writeFb_sp (s : State) (v : Framebuffer) : (s.writeFb v).sp = s.sp := rfl
@[simp] theorem writeFb_keys (s : State) (v : Framebuffer) : (s.writeFb v).keys = s.keys := rfl
@[simp] theorem writeFb_DT (s : State) (v : Framebuffer) : (s.writeFb v).DT = s.DT := rfl
@[simp] theorem writeFb_ST (s : State) (v : Framebuffer) : (s.writeFb v).ST = s.ST := rfl
@[simp] theorem writeFb_fb (s : State) (v : Framebuffer) : (s.writeFb v).fb = v := rfl
@[simp] theorem writeFb_mem (s : State) (v : Framebuffer) : (s.writeFb v).mem = s.mem := rfl
@[simp] theorem writeFb_fault (s : State) (v : Framebuffer) : (s.writeFb v).fault = s.fault := rfl
@[simp] theorem writeFb_calls (s : State) (v : Framebuffer) : (s.writeFb v).calls = s.calls := rfl
@[simp] theorem writeFb_rand (s : State) (v : Framebuffer) : (s.writeFb v).rand = s.rand := rfl
@[simp] theorem writeFb_draws (s : State) (v : Framebuffer) : (s.writeFb v).draws = s.draws := rfl
@[simp] theorem writeFb_reply (s : State) (v : Framebuffer) : (s.writeFb v).reply = s.reply := rfl
@[simp] theorem writeFb_reg (s : State) (v : Framebuffer) (q : Reg) : (s.writeFb v).reg q = s.reg q := rfl
@[simp] theorem writeFb_stackAt (s : State) (v : Framebuffer) (q : Fin 16) : (s.writeFb v).stackAt q = s.stackAt q := rfl
@[simp] theorem writeFb_keyAt (s : State) (v : Framebuffer) (q : Fin 16) : (s.writeFb v).keyAt q = s.keyAt q := rfl
@[simp] theorem writeFb_byteAt (s : State) (v : Framebuffer) (a : Nat) : (s.writeFb v).byteAt a = s.byteAt a := rfl

/-! ### writeMem -/

@[simp] theorem writeMem_pc (s : State) (m : List Host.Cell) : (s.writeMem m).pc = s.pc := rfl
@[simp] theorem writeMem_V (s : State) (m : List Host.Cell) : (s.writeMem m).V = s.V := rfl
@[simp] theorem writeMem_I (s : State) (m : List Host.Cell) : (s.writeMem m).I = s.I := rfl
@[simp] theorem writeMem_stack (s : State) (m : List Host.Cell) : (s.writeMem m).stack = s.stack := rfl
@[simp] theorem writeMem_sp (s : State) (m : List Host.Cell) : (s.writeMem m).sp = s.sp := rfl
@[simp] theorem writeMem_keys (s : State) (m : List Host.Cell) : (s.writeMem m).keys = s.keys := rfl
@[simp] theorem writeMem_DT (s : State) (m : List Host.Cell) : (s.writeMem m).DT = s.DT := rfl
@[simp] theorem writeMem_ST (s : State) (m : List Host.Cell) : (s.writeMem m).ST = s.ST := rfl
@[simp] theorem writeMem_fb (s : State) (m : List Host.Cell) : (s.writeMem m).fb = s.fb := rfl
@[simp] theorem writeMem_mem (s : State) (m : List Host.Cell) : (s.writeMem m).mem = m := rfl
@[simp] theorem writeMem_fault (s : State) (m : List Host.Cell) : (s.writeMem m).fault = s.fault := rfl
@[simp] theorem writeMem_calls (s : State) (m : List Host.Cell) : (s.writeMem m).calls = s.calls := rfl
@[simp] theorem writeMem_rand (s : State) (m : List Host.Cell) : (s.writeMem m).rand = s.rand := rfl
@[simp] theorem writeMem_draws (s : State) (m : List Host.Cell) : (s.writeMem m).draws = s.draws := rfl
@[simp] theorem writeMem_reply (s : State) (m : List Host.Cell) : (s.writeMem m).reply = s.reply := rfl
@[simp] theorem writeMem_reg (s : State) (m : List Host.Cell) (q : Reg) : (s.writeMem m).reg q = s.reg q := rfl
@[simp] theorem writeMem_stackAt (s : State) (m : List Host.Cell) (q : Fin 16) : (s.writeMem m).stackAt q = s.stackAt q := rfl
@[simp] theorem writeMem_keyAt (s : State) (m : List Host.Cell) (q : Fin 16) : (s.writeMem m).keyAt q = s.keyAt q := rfl
@[simp] theorem writeMem_pixel (s : State) (m : List Host.Cell) (c : Fin 64) (q : Fin 32) : (s.writeMem m).pixel c q = s.pixel c q := rfl

/-! ### writeFault -/

@[simp] theorem writeFault_pc (s : State) (f : Option LatchedFault) : (s.writeFault f).pc = s.pc := rfl
@[simp] theorem writeFault_V (s : State) (f : Option LatchedFault) : (s.writeFault f).V = s.V := rfl
@[simp] theorem writeFault_I (s : State) (f : Option LatchedFault) : (s.writeFault f).I = s.I := rfl
@[simp] theorem writeFault_stack (s : State) (f : Option LatchedFault) : (s.writeFault f).stack = s.stack := rfl
@[simp] theorem writeFault_sp (s : State) (f : Option LatchedFault) : (s.writeFault f).sp = s.sp := rfl
@[simp] theorem writeFault_keys (s : State) (f : Option LatchedFault) : (s.writeFault f).keys = s.keys := rfl
@[simp] theorem writeFault_DT (s : State) (f : Option LatchedFault) : (s.writeFault f).DT = s.DT := rfl
@[simp] theorem writeFault_ST (s : State) (f : Option LatchedFault) : (s.writeFault f).ST = s.ST := rfl
@[simp] theorem writeFault_fb (s : State) (f : Option LatchedFault) : (s.writeFault f).fb = s.fb := rfl
@[simp] theorem writeFault_mem (s : State) (f : Option LatchedFault) : (s.writeFault f).mem = s.mem := rfl
@[simp] theorem writeFault_fault (s : State) (f : Option LatchedFault) : (s.writeFault f).fault = f := rfl
@[simp] theorem writeFault_calls (s : State) (f : Option LatchedFault) : (s.writeFault f).calls = s.calls := rfl
@[simp] theorem writeFault_rand (s : State) (f : Option LatchedFault) : (s.writeFault f).rand = s.rand := rfl
@[simp] theorem writeFault_draws (s : State) (f : Option LatchedFault) : (s.writeFault f).draws = s.draws := rfl
@[simp] theorem writeFault_reply (s : State) (f : Option LatchedFault) : (s.writeFault f).reply = s.reply := rfl
@[simp] theorem writeFault_reg (s : State) (f : Option LatchedFault) (q : Reg) : (s.writeFault f).reg q = s.reg q := rfl
@[simp] theorem writeFault_stackAt (s : State) (f : Option LatchedFault) (q : Fin 16) : (s.writeFault f).stackAt q = s.stackAt q := rfl
@[simp] theorem writeFault_keyAt (s : State) (f : Option LatchedFault) (q : Fin 16) : (s.writeFault f).keyAt q = s.keyAt q := rfl
@[simp] theorem writeFault_pixel (s : State) (f : Option LatchedFault) (c : Fin 64) (q : Fin 32) : (s.writeFault f).pixel c q = s.pixel c q := rfl
@[simp] theorem writeFault_byteAt (s : State) (f : Option LatchedFault) (a : Nat) : (s.writeFault f).byteAt a = s.byteAt a := rfl

/-! ### writeCalls -/

@[simp] theorem writeCalls_pc (s : State) (cs : List HostCall) : (s.writeCalls cs).pc = s.pc := rfl
@[simp] theorem writeCalls_V (s : State) (cs : List HostCall) : (s.writeCalls cs).V = s.V := rfl
@[simp] theorem writeCalls_I (s : State) (cs : List HostCall) : (s.writeCalls cs).I = s.I := rfl
@[simp] theorem writeCalls_stack (s : State) (cs : List HostCall) : (s.writeCalls cs).stack = s.stack := rfl
@[simp] theorem writeCalls_sp (s : State) (cs : List HostCall) : (s.writeCalls cs).sp = s.sp := rfl
@[simp] theorem writeCalls_keys (s : State) (cs : List HostCall) : (s.writeCalls cs).keys = s.keys := rfl
@[simp] theorem writeCalls_DT (s : State) (cs : List HostCall) : (s.writeCalls cs).DT = s.DT := rfl
@[simp] theorem writeCalls_ST (s : State) (cs : List HostCall) : (s.writeCalls cs).ST = s.ST := rfl
@[simp] theorem writeCalls_fb (s : State) (cs : List HostCall) : (s.writeCalls cs).fb = s.fb := rfl
@[simp] theorem writeCalls_mem (s : State) (cs : List HostCall) : (s.writeCalls cs).mem = s.mem := rfl
@[simp] theorem writeCalls_fault (s : State) (cs : List HostCall) : (s.writeCalls cs).fault = s.fault := rfl
@[simp] theorem writeCalls_calls (s : State) (cs : List HostCall) : (s.writeCalls cs).calls = cs := rfl
@[simp] theorem writeCalls_rand (s : State) (cs : List HostCall) : (s.writeCalls cs).rand = s.rand := rfl
@[simp] theorem writeCalls_draws (s : State) (cs : List HostCall) : (s.writeCalls cs).draws = s.draws := rfl
@[simp] theorem writeCalls_reply (s : State) (cs : List HostCall) : (s.writeCalls cs).reply = s.reply := rfl
@[simp] theorem writeCalls_reg (s : State) (cs : List HostCall) (q : Reg) : (s.writeCalls cs).reg q = s.reg q := rfl
@[simp] theorem writeCalls_stackAt (s : State) (cs : List HostCall) (q : Fin 16) : (s.writeCalls cs).stackAt q = s.stackAt q := rfl
@[simp] theorem writeCalls_keyAt (s : State) (cs : List HostCall) (q : Fin 16) : (s.writeCalls cs).keyAt q = s.keyAt q := rfl
@[simp] theorem writeCalls_pixel (s : State) (cs : List HostCall) (c : Fin 64) (q : Fin 32) : (s.writeCalls cs).pixel c q = s.pixel c q := rfl
@[simp] theorem writeCalls_byteAt (s : State) (cs : List HostCall) (a : Nat) : (s.writeCalls cs).byteAt a = s.byteAt a := rfl

/-! ### writeRand -/

@[simp] theorem writeRand_pc (s : State) (b : Byte) : (s.writeRand b).pc = s.pc := rfl
@[simp] theorem writeRand_V (s : State) (b : Byte) : (s.writeRand b).V = s.V := rfl
@[simp] theorem writeRand_I (s : State) (b : Byte) : (s.writeRand b).I = s.I := rfl
@[simp] theorem writeRand_stack (s : State) (b : Byte) : (s.writeRand b).stack = s.stack := rfl
@[simp] theorem writeRand_sp (s : State) (b : Byte) : (s.writeRand b).sp = s.sp := rfl
@[simp] theorem writeRand_keys (s : State) (b : Byte) : (s.writeRand b).keys = s.keys := rfl
@[simp] theorem writeRand_DT (s : State) (b : Byte) : (s.writeRand b).DT = s.DT := rfl
@[simp] theorem writeRand_ST (s : State) (b : Byte) : (s.writeRand b).ST = s.ST := rfl
@[simp] theorem writeRand_fb (s : State) (b : Byte) : (s.writeRand b).fb = s.fb := rfl
@[simp] theorem writeRand_mem (s : State) (b : Byte) : (s.writeRand b).mem = s.mem := rfl
@[simp] theorem writeRand_fault (s : State) (b : Byte) : (s.writeRand b).fault = s.fault := rfl
@[simp] theorem writeRand_calls (s : State) (b : Byte) : (s.writeRand b).calls = s.calls := rfl
@[simp] theorem writeRand_rand (s : State) (b : Byte) : (s.writeRand b).rand = b := rfl
@[simp] theorem writeRand_draws (s : State) (b : Byte) : (s.writeRand b).draws = s.draws := rfl
@[simp] theorem writeRand_reply (s : State) (b : Byte) : (s.writeRand b).reply = s.reply := rfl
@[simp] theorem writeRand_reg (s : State) (b : Byte) (q : Reg) : (s.writeRand b).reg q = s.reg q := rfl
@[simp] theorem writeRand_stackAt (s : State) (b : Byte) (q : Fin 16) : (s.writeRand b).stackAt q = s.stackAt q := rfl
@[simp] theorem writeRand_keyAt (s : State) (b : Byte) (q : Fin 16) : (s.writeRand b).keyAt q = s.keyAt q := rfl
@[simp] theorem writeRand_pixel (s : State) (b : Byte) (c : Fin 64) (q : Fin 32) : (s.writeRand b).pixel c q = s.pixel c q := rfl
@[simp] theorem writeRand_byteAt (s : State) (b : Byte) (a : Nat) : (s.writeRand b).byteAt a = s.byteAt a := rfl

/-! ### writeDraws -/

@[simp] theorem writeDraws_pc (s : State) (n : Nat) : (s.writeDraws n).pc = s.pc := rfl
@[simp] theorem writeDraws_V (s : State) (n : Nat) : (s.writeDraws n).V = s.V := rfl
@[simp] theorem writeDraws_I (s : State) (n : Nat) : (s.writeDraws n).I = s.I := rfl
@[simp] theorem writeDraws_stack (s : State) (n : Nat) : (s.writeDraws n).stack = s.stack := rfl
@[simp] theorem writeDraws_sp (s : State) (n : Nat) : (s.writeDraws n).sp = s.sp := rfl
@[simp] theorem writeDraws_keys (s : State) (n : Nat) : (s.writeDraws n).keys = s.keys := rfl
@[simp] theorem writeDraws_DT (s : State) (n : Nat) : (s.writeDraws n).DT = s.DT := rfl
@[simp] theorem writeDraws_ST (s : State) (n : Nat) : (s.writeDraws n).ST = s.ST := rfl
@[simp] theorem writeDraws_fb (s : State) (n : Nat) : (s.writeDraws n).fb = s.fb := rfl
@[simp] theorem writeDraws_mem (s : State) (n : Nat) : (s.writeDraws n).mem = s.mem := rfl
@[simp] theorem writeDraws_fault (s : State) (n : Nat) : (s.writeDraws n).fault = s.fault := rfl
@[simp] theorem writeDraws_calls (s : State) (n : Nat) : (s.writeDraws n).calls = s.calls := rfl
@[simp] theorem writeDraws_rand (s : State) (n : Nat) : (s.writeDraws n).rand = s.rand := rfl
@[simp] theorem writeDraws_draws (s : State) (n : Nat) : (s.writeDraws n).draws = n := rfl
@[simp] theorem writeDraws_reply (s : State) (n : Nat) : (s.writeDraws n).reply = s.reply := rfl
@[simp] theorem writeDraws_reg (s : State) (n : Nat) (q : Reg) : (s.writeDraws n).reg q = s.reg q := rfl
@[simp] theorem writeDraws_stackAt (s : State) (n : Nat) (q : Fin 16) : (s.writeDraws n).stackAt q = s.stackAt q := rfl
@[simp] theorem writeDraws_keyAt (s : State) (n : Nat) (q : Fin 16) : (s.writeDraws n).keyAt q = s.keyAt q := rfl
@[simp] theorem writeDraws_pixel (s : State) (n : Nat) (c : Fin 64) (q : Fin 32) : (s.writeDraws n).pixel c q = s.pixel c q := rfl
@[simp] theorem writeDraws_byteAt (s : State) (n : Nat) (a : Nat) : (s.writeDraws n).byteAt a = s.byteAt a := rfl

/-! ### writeReply -/

@[simp] theorem writeReply_pc (s : State) (r : Reply) : (s.writeReply r).pc = s.pc := rfl
@[simp] theorem writeReply_V (s : State) (r : Reply) : (s.writeReply r).V = s.V := rfl
@[simp] theorem writeReply_I (s : State) (r : Reply) : (s.writeReply r).I = s.I := rfl
@[simp] theorem writeReply_stack (s : State) (r : Reply) : (s.writeReply r).stack = s.stack := rfl
@[simp] theorem writeReply_sp (s : State) (r : Reply) : (s.writeReply r).sp = s.sp := rfl
@[simp] theorem writeReply_keys (s : State) (r : Reply) : (s.writeReply r).keys = s.keys := rfl
@[simp] theorem writeReply_DT (s : State) (r : Reply) : (s.writeReply r).DT = s.DT := rfl
@[simp] theorem writeReply_ST (s : State) (r : Reply) : (s.writeReply r).ST = s.ST := rfl
@[simp] theorem writeReply_fb (s : State) (r : Reply) : (s.writeReply r).fb = s.fb := rfl
@[simp] theorem writeReply_mem (s : State) (r : Reply) : (s.writeReply r).mem = s.mem := rfl
@[simp] theorem writeReply_fault (s : State) (r : Reply) : (s.writeReply r).fault = s.fault := rfl
@[simp] theorem writeReply_calls (s : State) (r : Reply) : (s.writeReply r).calls = s.calls := rfl
@[simp] theorem writeReply_rand (s : State) (r : Reply) : (s.writeReply r).rand = s.rand := rfl
@[simp] theorem writeReply_draws (s : State) (r : Reply) : (s.writeReply r).draws = s.draws := rfl
@[simp] theorem writeReply_reply (s : State) (r : Reply) : (s.writeReply r).reply = r := rfl
@[simp] theorem writeReply_reg (s : State) (r : Reply) (q : Reg) : (s.writeReply r).reg q = s.reg q := rfl
@[simp] theorem writeReply_stackAt (s : State) (r : Reply) (q : Fin 16) : (s.writeReply r).stackAt q = s.stackAt q := rfl
@[simp] theorem writeReply_keyAt (s : State) (r : Reply) (q : Fin 16) : (s.writeReply r).keyAt q = s.keyAt q := rfl
@[simp] theorem writeReply_pixel (s : State) (r : Reply) (c : Fin 64) (q : Fin 32) : (s.writeReply r).pixel c q = s.pixel c q := rfl
@[simp] theorem writeReply_byteAt (s : State) (r : Reply) (a : Nat) : (s.writeReply r).byteAt a = s.byteAt a := rfl

/-! ### What a view reads after an update of its own field -/

theorem writeV_reg (s : State) (r q : Reg) (v : Byte) :
    (s.writeV r v).reg q = if q = r then v else s.reg q := by
  unfold State.reg State.writeV
  simp only [Fin.getElem_fin, Vector.getElem_set]
  by_cases h : q = r
  · simp [h]
  · have : ¬ r.val = q.val := fun e => h (Fin.ext e.symm)
    simp [h, this]

@[simp] theorem writeV_reg_self (s : State) (r : Reg) (v : Byte) : (s.writeV r v).reg r = v := by
  simp [writeV_reg]

@[simp] theorem writeV_reg_ne (s : State) (r q : Reg) (v : Byte) (h : q ≠ r) :
    (s.writeV r v).reg q = s.reg q := by
  simp [writeV_reg, h]

theorem writeVF_reg (s : State) (q : Reg) (v : Byte) :
    (s.writeVF v).reg q = if q = regF then v else s.reg q := writeV_reg s regF q v

theorem writeStack_stackAt (s : State) (j q : Fin 16) (v : Word) :
    (s.writeStack j v).stackAt q = if q = j then v else s.stackAt q := by
  unfold State.stackAt State.writeStack
  simp only [Fin.getElem_fin, Vector.getElem_set]
  by_cases h : q = j
  · simp [h]
  · have : ¬ j.val = q.val := fun e => h (Fin.ext e.symm)
    simp [h, this]

theorem writeKey_keyAt (s : State) (k q : Fin 16) (b : Bool) :
    (s.writeKey k b).keyAt q = if q = k then b else s.keyAt q := by
  unfold State.keyAt State.writeKey
  simp only [Fin.getElem_fin, Vector.getElem_set]
  by_cases h : q = k
  · simp [h]
  · have : ¬ k.val = q.val := fun e => h (Fin.ext e.symm)
    simp [h, this]

@[simp] theorem writeMem_byteAt (s : State) (m : List Host.Cell) (a : Nat) :
    (s.writeMem m).byteAt a = Memory.read m a := rfl

@[simp] theorem writeFb_pixel (s : State) (v : Framebuffer) (c : Fin 64) (q : Fin 32) :
    (s.writeFb v).pixel c q = v[q][c] := rfl

end Sys2Proof.Machine.State
end

