-- ==== Sys2Proof/Laws/Memory.lean ====
section
/-! SUPPORT. Laws of memory as a list of cells: read after write, the canonical form kept by every memory
operation, and equal reads of canonical memories meaning equal lists. -/

namespace Sys2Proof.Machine.Memory

@[simp] theorem read_nil (a : Nat) : read [] a = unlisted a := rfl

theorem read_cons (c : Host.Cell) (m : List Host.Cell) (a : Nat) :
    read (c :: m) a = if c.1 = a then c.2 else read m a := by cases c; rfl

/-- An address below every listed one reads as unlisted. -/
theorem read_of_not_mem (m : List Host.Cell) (a : Nat) (h : ∀ c ∈ m, c.1 ≠ a) :
    read m a = unlisted a := by
  induction m with
  | nil => rfl
  | cons c m ih =>
    rw [read_cons, if_neg (h c (by simp)), ih fun d hd => h d (by simp [hd])]

theorem read_write_self (m : List Host.Cell) (hm : m.Pairwise (fun c d => c.1 < d.1)) (a : Nat)
    (v : Byte) : read (write m a v) a = v := by
  induction m with
  | nil => by_cases h : v = unlisted a <;> simp [write, h, read]
  | cons c m ih =>
    obtain ⟨b, u⟩ := c
    obtain ⟨hlt, hm⟩ := List.pairwise_cons.1 hm
    have rest : ∀ {k}, k ≤ b → read m k = unlisted k := fun hk =>
      read_of_not_mem m _ fun d hd => by have := hlt d hd; simp only at this; omega
    unfold write
    split
    · next h => simp [read, ih hm, Nat.ne_of_lt h]
    · split
      · next h => subst h; split <;> simp_all [read]
      · next h1 h2 => split <;> simp_all [read, rest (k := a) (by omega)]

theorem read_write_other (m : List Host.Cell) (a b : Nat) (v : Byte) (h : b ≠ a) :
    read (write m a v) b = read m b := by
  induction m with
  | nil => by_cases hv : v = unlisted a <;> simp [write, hv, read, h.symm]
  | cons c m ih =>
    obtain ⟨d, u⟩ := c
    unfold write
    split
    · simp [read, ih]
    · split
      · next e => subst e; split <;> simp [read, h.symm]
      · split <;> simp [read, h.symm]

theorem read_write (m : List Host.Cell) (hm : wf m) (a b : Nat) (v : Byte) :
    read (write m a v) b = if b = a then v else read m b := by
  split
  · next h => subst h; exact read_write_self m hm.1 b v
  · next h => exact read_write_other m a b v h

/-- A listed address of the result was listed before or is the one written. -/
theorem mem_write (m : List Host.Cell) (a : Nat) (v : Byte) (c : Host.Cell) (hc : c ∈ write m a v) :
    c ∈ m ∨ (c = (a, v) ∧ v ≠ unlisted a) := by
  induction m with
  | nil => by_cases hv : v = unlisted a <;> simp_all [write]
  | cons d m ih =>
    obtain ⟨b, u⟩ := d
    unfold write at hc
    split at hc
    · rcases List.mem_cons.1 hc with rfl | hc
      · simp
      · rcases ih hc with h | h <;> simp [h]
    · split at hc
      · split at hc
        · simp [hc]
        · rcases List.mem_cons.1 hc with rfl | hc
          · exact .inr ⟨rfl, ‹_›⟩
          · simp [hc]
      · split at hc
        · exact .inl hc
        · rcases List.mem_cons.1 hc with rfl | hc
          · exact .inr ⟨rfl, ‹_›⟩
          · exact .inl hc

theorem write_wf (m : List Host.Cell) (hm : wf m) (a : Nat) (v : Byte) (ha : a < 4096) :
    wf (write m a v) := by
  refine ⟨?_, fun c hc => ?_⟩
  · obtain ⟨hm, -⟩ := hm
    induction m with
    | nil => by_cases hv : v = unlisted a <;> simp [write, hv]
    | cons d m ih =>
      obtain ⟨b, u⟩ := d
      obtain ⟨hlt, hm⟩ := List.pairwise_cons.1 hm
      unfold write
      split
      · next h =>
        refine List.pairwise_cons.2 ⟨fun c hc => ?_, ih hm⟩
        rcases mem_write m a v c hc with h' | ⟨rfl, -⟩
        · exact hlt c h'
        · exact h
      · split
        · next h => subst h; split
                    · exact hm
                    · exact List.pairwise_cons.2 ⟨hlt, hm⟩
        · next h1 h2 =>
          have hb : List.Pairwise (fun c d => c.1 < d.1) ((b, u) :: m) := List.pairwise_cons.2 ⟨hlt, hm⟩
          split
          · exact hb
          · refine List.pairwise_cons.2 ⟨fun c hc => ?_, hb⟩
            rcases List.mem_cons.1 hc with rfl | hc
            · simp only; omega
            · have := hlt c hc; simp only at this ⊢; omega
  · rcases mem_write m a v c hc with h | ⟨rfl, hv⟩
    · exact hm.2 c h
    · exact ⟨ha, hv⟩

theorem writeAll_wf (vs : List Byte) (m : List Host.Cell) (hm : wf m) (a : Nat)
    (ha : a + vs.length ≤ 4096) : wf (writeAll m a vs) := by
  induction vs generalizing m a with
  | nil => exact hm
  | cons v vs ih =>
    simp only [List.length_cons] at ha
    exact ih _ (write_wf m hm a v (by omega)) _ (by omega)

/-- Outside the stored bytes nothing changes. -/
theorem read_writeAll_other (vs : List Byte) (m : List Host.Cell) (a b : Nat)
    (h : b < a ∨ a + vs.length ≤ b) : read (writeAll m a vs) b = read m b := by
  induction vs generalizing m a with
  | nil => rfl
  | cons v vs ih =>
    simp only [List.length_cons] at h
    rw [writeAll, ih _ _ (by omega), read_write_other _ _ _ _ (by omega)]

/-- Each stored byte reads back. -/
theorem read_writeAll_self (vs : List Byte) (m : List Host.Cell) (hm : wf m) (a : Nat)
    (ha : a + vs.length ≤ 4096) (k : Nat) (hk : k < vs.length) :
    read (writeAll m a vs) (a + k) = vs[k] := by
  induction vs generalizing m a k with
  | nil => simp at hk
  | cons v vs ih =>
    simp only [List.length_cons] at ha hk
    have hw := write_wf m hm a v (by omega)
    cases k with
    | zero =>
      rw [writeAll, read_writeAll_other _ _ _ _ (by omega), read_write _ hm]; simp
    | succ k =>
      have := ih _ hw (a + 1) (by omega) k (by omega)
      rw [writeAll, show a + (k + 1) = a + 1 + k by omega, this]; simp

theorem nil_wf : wf [] := ⟨.nil, by simp⟩

theorem read_tail (c : Host.Cell) (m : List Host.Cell) (h : wf (c :: m)) (a : Nat) :
    read m a = if a = c.1 then unlisted a else read (c :: m) a := by
  split
  · next e =>
    subst e
    exact read_of_not_mem m _ fun d hd => by have := (List.pairwise_cons.1 h.1).1 d hd; omega
  · next e => rw [read_cons, if_neg (fun h => e h.symm)]

end Sys2Proof.Machine.Memory
end

