-- ==== Sys2Proof/Laws/Ops.lean ====
section
/-! SUPPORT. One lemma per shared operation, saying once everything it can do. -/

namespace Sys2Proof.Machine

/-! ### Raising and going on -/

@[simp] theorem raise_eq (f : LatchedFault) (s : State) : raise f s = .next (s.writeFault (some f)) := rfl

@[simp] theorem orRaise_ok {α : Type} (a : α) (s : State) (k : α → Result) :
    orRaise (.ok a) s k = k a := rfl

@[simp] theorem orRaise_error {α : Type} (f : LatchedFault) (s : State) (k : α → Result) :
    orRaise (.error f) s k = .next (s.writeFault (some f)) := rfl

/-! ### Memory primitives -/

theorem memRead_ok {s : State} {a : Nat} (h : a < 4096) : memRead s a = .ok (s.byteAt a) := by
  simp [memRead, show ¬ a > 0xFFF by omega]

theorem memRead_error {s : State} {a : Nat} (h : 4096 ≤ a) :
    memRead s a = .error (.addressOutOfRange a) := by
  simp [memRead, show a > 0xFFF by omega]

theorem memWrite_ok {s : State} {a : Nat} {v : Byte} (h : a < 4096) :
    memWrite s a v = .ok (s.writeMem (Memory.write s.mem a v)) := by
  simp [memWrite, show ¬ a > 0xFFF by omega]

theorem memWrite_error {s : State} {a : Nat} {v : Byte} (h : 4096 ≤ a) :
    memWrite s a v = .error (.addressOutOfRange a) := by
  simp [memWrite, show a > 0xFFF by omega]

theorem fetch_ok {s : State} (h : s.pc.toNat + 1 ≤ 4095) :
    fetch s = .ok (wordOfBytes (s.byteAt s.pc.toNat) (s.byteAt (s.pc.toNat + 1))) := by
  simp [fetch, show ¬ s.pc.toNat + 1 > 4095 by omega]

theorem fetch_error {s : State} (h : 4095 < s.pc.toNat + 1) :
    fetch s = .error (.addressOutOfRange s.pc.toNat) := by
  simp [fetch, show s.pc.toNat + 1 > 4095 by omega]

/-! ### Stack and keys -/

theorem push_ok {s : State} {v : Word} (h : s.sp.val < 16) :
    push s v = .ok ((s.writeStack ⟨s.sp.val, h⟩ v).writeSp ⟨s.sp.val + 1, by omega⟩) := by
  simp [push, h]

theorem push_error {s : State} {v : Word} (h : ¬ s.sp.val < 16) :
    push s v = .error (.stackOverflow s.sp.val) := by
  simp [push, h]

theorem pop_ok {s : State} (h : 0 < s.sp.val) :
    pop s = .ok (s.stackAt ⟨s.sp.val - 1, by have := s.sp.isLt; omega⟩,
      s.writeSp ⟨s.sp.val - 1, by have := s.sp.isLt; omega⟩) := by
  simp [pop, h]

theorem pop_error {s : State} (h : ¬ 0 < s.sp.val) : pop s = .error .stackUnderflow := by
  simp [pop, h]

theorem keyRead_ok {s : State} {k : Byte} (h : k.toNat < 16) :
    keyRead s k = .ok (s.keyAt ⟨k.toNat, h⟩) := by simp [keyRead, h]

theorem keyRead_error {s : State} {k : Byte} (h : ¬ k.toNat < 16) :
    keyRead s k = .error (.keyIndexOutOfRange k) := by simp [keyRead, h]

/-- The scan finds the lowest pressed key. -/
theorem firstPressed_some {s : State} {k : Fin 16} (h : firstPressed s = some k) :
    s.keyAt k = true ∧ ∀ j, j < k → s.keyAt j = false := by
  unfold firstPressed at h
  refine ⟨by simpa using List.find?_some h, fun j hj => ?_⟩
  have := (List.find?_eq_some_iff_append.1 h).2
  obtain ⟨as, bs, hab, hn⟩ := this
  have hmem : j ∈ as := by
    have hs : (allRegs : List (Fin 16)).Pairwise (· < ·) := by decide
    have hj' : j ∈ (allRegs : List (Fin 16)) := by
      have all : ∀ q : Fin 16, q ∈ (allRegs : List (Fin 16)) := by decide
      exact all j
    rw [hab] at hs hj'
    rcases List.mem_append.1 hj' with h1 | h1
    · exact h1
    · exfalso
      have hp := (List.pairwise_append.1 hs).2.1
      rcases List.mem_cons.1 h1 with rfl | h2
      · exact absurd hj (lt_irrefl _)
      · exact absurd hj (not_lt.2 (le_of_lt ((List.pairwise_cons.1 hp).1 j h2)))
  simpa using hn j hmem

theorem firstPressed_none {s : State} (h : firstPressed s = none) (k : Fin 16) : s.keyAt k = false := by
  have all : ∀ q : Fin 16, q ∈ (allRegs : List (Fin 16)) := by decide
  have hk := all k
  simpa using List.find?_eq_none.1 h k hk

/-! ### Advance, skip, rewind -/

@[simp] theorem advance_pc (s : State) : (advance s).pc = s.pc + 2 := rfl

@[simp] theorem rewind_pc (s : State) : (rewind s).pc = s.pc - 2 := rfl

theorem skipIf_eq (c : Bool) (s : State) :
    skipIf c s = s.writePc (if c then s.pc + 2 else s.pc) := by
  cases c <;> rfl

/-! ### Multi-byte stores and loads -/

/-- Everything a run of stores can do: all bytes land, or those below 0x1000 land and the first address
out of range is latched (R96). -/
theorem storeBytes_eq (vs : List Byte) (base : Nat) (s : State) :
    storeBytes base vs s =
      if base + vs.length ≤ 4096 ∨ vs = [] then .next (s.writeMem (Memory.writeAll s.mem base vs))
      else .next ((s.writeMem (Memory.writeAll s.mem base (vs.take (4096 - base)))).writeFault
        (some (.addressOutOfRange (max base 4096)))) := by
  induction vs generalizing base s with
  | nil => simp [storeBytes, Memory.writeAll, State.writeMem]
  | cons v vs ih =>
    by_cases hb : base < 4096
    · rw [storeBytes, memWrite_ok hb, orRaise_ok, ih]
      have e : 4096 - base = (4096 - (base + 1)) + 1 := by omega
      by_cases hv : vs = []
      · subst hv
        simp [Memory.writeAll, State.writeMem, show base + 1 ≤ 4096 by omega]
      · have hlen : 0 < vs.length := List.length_pos_iff.2 hv
        simp only [List.length_cons, hv, or_false, reduceCtorEq]
        by_cases hr : base + 1 + vs.length ≤ 4096
        · rw [if_pos hr, if_pos (by omega)]; rfl
        · rw [if_neg hr, if_neg (by omega), e, List.take_succ_cons, Memory.writeAll,
            show max base 4096 = max (base + 1) 4096 by omega]
          rfl
    · rw [storeBytes, memWrite_error (by omega), orRaise_error, if_neg (by simp; omega),
        show 4096 - base = 0 by omega, show max base 4096 = base by omega]
      simp [Memory.writeAll, State.writeMem]

/-- Everything a run of loads can do: only registers of the list change, each to the byte at its address
when that exists, and the first address out of range is latched (R96). -/
theorem loadRegs_spec (rs : List Reg) (base : Nat) (s : State) (hn : rs.Nodup) :
    ∃ V : Vector Byte 16,
      loadRegs base rs s = .next { s with
        V := V
        fault := if base + rs.length ≤ 4096 ∨ rs = [] then s.fault
          else some (.addressOutOfRange (max base 4096)) } ∧
      (∀ k, (h : k < rs.length) → ({ s with V := V } : State).reg rs[k] =
        if base + k < 4096 then s.byteAt (base + k) else s.reg rs[k]) ∧
      ∀ r, r ∉ rs → ({ s with V := V } : State).reg r = s.reg r := by
  induction rs generalizing base s with
  | nil => exact ⟨s.V, by simp [loadRegs], by simp, fun r _ => rfl⟩
  | cons q rs ih =>
    obtain ⟨hq, hn⟩ := List.nodup_cons.1 hn
    by_cases hb : base < 4096
    · obtain ⟨V, hV, h1, h2⟩ := ih (base + 1) (s.writeV q (s.byteAt base)) hn
      refine ⟨V, ?_, fun k hk => ?_, fun r hr => ?_⟩
      · rw [loadRegs, memRead_ok hb, orRaise_ok, hV]
        by_cases hrs : rs = []
        · subst hrs; simp [State.writeV, show base + 1 ≤ 4096 by omega]
        · have hlen : 0 < rs.length := List.length_pos_iff.2 hrs
          have e : max (base + 1) 4096 = max base 4096 := by omega
          have e2 : (base + 1 + rs.length ≤ 4096) = (base + (rs.length + 1) ≤ 4096) := by
            apply propext; omega
          simp [State.writeV, hrs, e, e2]
      · cases k with
        | zero =>
          have := h2 q hq
          rw [State.writeV_reg_self] at this
          rw [if_pos (by omega)]
          exact this
        | succ k =>
          have hk' : k < rs.length := by simpa using hk
          have := h1 k hk'
          have hne : rs[k] ≠ q := fun e => hq (e ▸ List.getElem_mem hk')
          rw [State.writeV_byteAt, State.writeV_reg_ne _ _ _ _ hne,
            show base + 1 + k = base + (k + 1) by omega] at this
          exact this
      · simp only [List.mem_cons, not_or] at hr
        exact (h2 r hr.2).trans (State.writeV_reg_ne _ _ _ _ hr.1)
    · refine ⟨s.V, ?_, fun k hk => ?_, fun r _ => rfl⟩
      · rw [loadRegs, memRead_error (by omega), orRaise_error, show max base 4096 = base by omega]
        have : ¬ (base + (rs.length + 1) ≤ 4096) := by omega
        simp [State.writeFault, this]
      · rw [if_neg (by omega)]

/-! ### The registers a block operation names -/

theorem regsUpTo_nodup (x : Reg) : (regsUpTo x).Nodup := by revert x; decide

@[simp] theorem regsUpTo_length (x : Reg) : (regsUpTo x).length = x.val + 1 := by revert x; decide

theorem regsUpTo_getElem (x : Reg) (k : Nat) (h : k < (regsUpTo x).length) :
    (regsUpTo x)[k] = ⟨k, by rw [regsUpTo_length] at h; omega⟩ := by
  have h16 : k < 16 := by rw [regsUpTo_length] at h; omega
  have all : ∀ j : Fin 16, (allRegs : List Reg)[j.val]? = some j := by decide
  have : (regsUpTo x)[k]? = some ⟨k, h16⟩ := by
    rw [regsUpTo, List.getElem?_take, if_pos (by rw [regsUpTo_length] at h; exact h)]
    exact all ⟨k, h16⟩
  rw [List.getElem?_eq_getElem h] at this
  exact Option.some.inj this

theorem mem_regsUpTo (x r : Reg) : r ∈ regsUpTo x ↔ r ≤ x := by revert x r; decide

end Sys2Proof.Machine
end

