-- ==== Sys2Proof/Laws/Cycle.lean ====
section
/-! SUPPORT. What a TICK, a transaction and a step are made of. -/

namespace Sys2Proof.Machine

@[simp] theorem answerTick_next (s : State) :
    answerTick (.next s) = .next (s.writeReply (tickReply s)) := rfl

theorem tick_running {s : State} (h : s.running) : tick s = answerTick (cycle s) := by
  simp [tick, show s.fault = none from h]

theorem tick_faulted {s : State} {f : LatchedFault} (h : s.fault = some f) :
    tick s = .fault .tickNotAdmitted := by
  simp [tick, h]

theorem decodeAndExecute_ok {w : Word} {i : Instr} (h : decode w = .ok i) (s : State) :
    decodeAndExecute w s = exec i s := by
  simp [decodeAndExecute, h]

theorem decodeAndExecute_error {w : Word} {e : Reject} (h : decode w = .error e) (s : State) :
    decodeAndExecute w s = .next (s.writeFault (some (.decodeError w))) := by
  simp [decodeAndExecute, h]

theorem cycle_fetch_error {s : State} (h : 4095 < s.pc.toNat + 1) :
    cycle s = .next (s.writeFault (some (.addressOutOfRange s.pc.toNat))) := by
  rw [cycle, fetch_error h, orRaise_error]

theorem cycle_fetch_ok {s : State} (h : s.pc.toNat + 1 ≤ 4095) :
    cycle s = decodeAndExecute (wordOfBytes (s.byteAt s.pc.toNat) (s.byteAt (s.pc.toNat + 1)))
      (advance s) := by
  rw [cycle, fetch_ok h, orRaise_ok]

theorem step_no_call {s : State} (h : s.calls = []) : step s = tick (drawRand s) := by
  simp [step, transact, h]

theorem step_call {s : State} {c : HostCall} {rest : List HostCall} (h : s.calls = c :: rest) :
    step s = hostCall c (s.writeCalls rest) := by
  simp [step, transact, h]

/-- A timer after one TICK_TIMERS, as a number (R185). -/
theorem countDown_toNat (t : Byte) : (countDown t).toNat = t.toNat - 1 := by
  unfold countDown
  split
  · next h => subst h; rfl
  · next h =>
    have h0 : t.toNat ≠ 0 := fun e => h (BitVec.eq_of_toNat_eq e)
    have := t.isLt
    have h1 : (1 : Byte).toNat = 1 := rfl
    rw [BitVec.toNat_sub, h1]; omega

/-- The framebuffer in index order has 64 booleans per row (R37). -/
theorem pixelsInOrder_length (fb : Framebuffer) : (pixelsInOrder fb).length = 2048 := by
  have h : ∀ l : List (Vector Bool 64), (l.flatMap (fun row => row.toList)).length = 64 * l.length := by
    intro l
    induction l with
    | nil => rfl
    | cons r l ih => rw [List.flatMap_cons, List.length_append, ih]; simp; omega
  rw [pixelsInOrder, h]; simp

/-- `placeWord` changes memory only. -/
theorem placeWord_pc (w : Word) (s : State) : (placeWord w s).pc = s.pc := by
  unfold placeWord; split <;> rfl

/-- The word placed where the next step fetches is the word fetched. -/
theorem fetch_runNext (w : Word) (s : State) (hm : Memory.wf s.mem) (h : s.pc.toNat + 1 ≤ 4095) :
    fetch (runNext w s) = .ok w := by
  have hpc : (runNext w s).pc = s.pc := placeWord_pc w _
  have hmem : (runNext w s).mem = Memory.writeAll s.mem s.pc.toNat [highByte w, lowByte w] := by
    unfold runNext placeWord
    rw [if_neg (by simpa using h)]; rfl
  have r := Memory.read_writeAll_self [highByte w, lowByte w] s.mem hm s.pc.toNat
    (by simp only [List.length_cons, List.length_nil]; omega)
  have r0 := r 0 (by simp)
  have r1 := r 1 (by simp)
  rw [fetch_ok (by rw [hpc]; exact h), State.byteAt, State.byteAt, hpc, hmem]
  simp only [Nat.add_zero] at r0
  rw [r0, r1]
  exact congrArg Except.ok (wordOfBytes_bytes w)

/-- The latch after LOAD_ROM (R202; log 21 when one was latched before). -/
theorem loadRom_fault (bytes : List Byte) (s : State) :
    (loadRom bytes s).fault = if 3584 < bytes.length then some (.romTooLarge bytes.length) else s.fault := by
  unfold loadRom Config.startAddr Config.memSize
  by_cases h : 3584 < bytes.length
  · rw [if_pos (by omega), if_pos h]; rfl
  · rw [if_neg (by omega), if_neg h]; rfl

/-! ### Stored bytes as later reads see them -/

theorem byteAt_writeAll (vs : List Byte) (base : Nat) (s : State) (hm : Memory.wf s.mem)
    (h : base + vs.length ≤ 4096) (a : Nat) :
    (s.writeMem (Memory.writeAll s.mem base vs)).byteAt a = overlaid vs base s a := by
  rw [State.writeMem_byteAt, overlaid]
  by_cases ha : base ≤ a
  · rw [if_pos ha]
    by_cases hl : a - base < vs.length
    · have := Memory.read_writeAll_self vs s.mem hm base h (a - base) hl
      rw [show base + (a - base) = a by omega] at this
      rw [this, List.getElem?_eq_getElem hl, Option.getD_some]
    · rw [List.getElem?_eq_none (by omega), Option.getD_none,
        Memory.read_writeAll_other _ _ _ _ (by omega)]
      rfl
  · rw [if_neg ha, Memory.read_writeAll_other _ _ _ _ (by omega)]; rfl

/-- A run of stores always answers, and every address of the memory then holds its stored byte, whether or
not a later byte of the run raised. -/
theorem storeBytes_overlaid (vs : List Byte) (base : Nat) (s : State) (hm : Memory.wf s.mem) :
    ∃ t, storeBytes base vs s = .next t ∧ ∀ a, a ≤ 0xFFF → t.byteAt a = overlaid vs base s a := by
  rw [storeBytes_eq]
  by_cases h : base + vs.length ≤ 4096
  · rw [if_pos (.inl h)]
    exact ⟨_, rfl, fun a _ => byteAt_writeAll vs base s hm h a⟩
  by_cases hv : vs = []
  · subst hv
    rw [if_pos (.inr rfl)]
    exact ⟨_, rfl, fun a _ => by simp [overlaid, Memory.writeAll, State.byteAt, State.writeMem]⟩
  rw [if_neg (by simp [h, hv])]
  refine ⟨_, rfl, fun a ha => ?_⟩
  rw [State.writeFault_byteAt]
  by_cases hb : base ≤ 4096
  · rw [byteAt_writeAll _ _ s hm (by simp; omega), overlaid, overlaid]
    by_cases hba : base ≤ a
    · rw [if_pos hba, if_pos hba, List.getElem?_take_of_lt (by omega)]
    · rw [if_neg hba, if_neg hba]
  · rw [show 4096 - base = 0 by omega, List.take_zero, overlaid, if_neg (by omega)]
    simp [Memory.writeAll, State.byteAt]

end Sys2Proof.Machine
end

