-- ==== Sys2Proof/Laws/Draw.lean ====
section
/-! SUPPORT. What drawing does to a pixel and to the collision flag (44_display.md R152). -/

namespace Sys2Proof.Machine

theorem togglePixel_get (fb : Framebuffer) (c c' : Fin 64) (r r' : Fin 32) :
    (togglePixel fb c r)[r'][c'] = (fb[r'][c'] ^^ decide (r' = r ∧ c' = c)) := by
  unfold togglePixel
  simp only [Fin.getElem_fin, Vector.getElem_set]
  by_cases hr : r = r'
  · subst hr
    by_cases hc : c = c'
    · subst hc; simp
    · have : ¬ c.val = c'.val := fun e => hc (Fin.ext e)
      have hc' : ¬ c' = c := fun e => hc e.symm
      simp [this, hc']
  · have : ¬ r.val = r'.val := fun e => hr (Fin.ext e)
    have hr' : ¬ r' = r := fun e => hr e.symm
    simp [this, hr']

/-- The columns of a sprite byte land on different screen columns. -/
theorem screenCol_inj {px a b : Nat} (ha : a < 8) (hb : b < 8)
    (h : screenCol (px + a) = screenCol (px + b)) : a = b := by
  have := congrArg Fin.val h; simp only [screenCol] at this; omega

/-- The set bits among the columns `cols` of a sprite byte that land on pixel `(c, r)`. -/
abbrev bitsOn (px py : Nat) (b : Byte) (cols : List Nat) (c : Fin 64) (r : Fin 32) : Prop :=
  r = screenRow py ∧ ∃ k ∈ cols, c = screenCol (px + k) ∧ b.getLsbD (7 - k) = true

theorem drawBits_spec (px py : Nat) (b : Byte) (cols : List Nat) (hn : cols.Nodup)
    (h8 : ∀ k ∈ cols, k < 8) (acc : Framebuffer × Bool) :
    (∀ c r, (cols.foldl (drawBit px py b) acc).1[r][c] = (acc.1[r][c] ^^ decide (bitsOn px py b cols c r))) ∧
    ((cols.foldl (drawBit px py b) acc).2 = true ↔
      acc.2 = true ∨ ∃ c r, acc.1[r][c] = true ∧ bitsOn px py b cols c r) := by
  induction cols generalizing acc with
  | nil => simp
  | cons k ks ih =>
    obtain ⟨hk, hn⟩ := List.nodup_cons.1 hn
    have hk8 := h8 k (by simp)
    have hks8 : ∀ j ∈ ks, j < 8 := fun j hj => h8 j (by simp [hj])
    obtain ⟨ih1, ih2⟩ := ih hn hks8 (drawBit px py b acc k)
    rw [List.foldl_cons]
    have disj : ∀ c, c = screenCol (px + k) → ¬ ∃ j ∈ ks, c = screenCol (px + j) ∧ b.getLsbD (7 - j) = true := by
      rintro c rfl ⟨j, hj, e, -⟩
      exact hk (screenCol_inj hk8 (hks8 j hj) e ▸ hj)
    by_cases hbit : b.getLsbD (7 - k) = true
    · have hd : drawBit px py b acc k = (togglePixel acc.1 (screenCol (px + k)) (screenRow py),
          acc.2 || acc.1[screenRow py][screenCol (px + k)]) := by simp [drawBit, hbit]
      rw [hd] at ih1 ih2 ⊢
      refine ⟨fun c r => ?_, ?_⟩
      · rw [ih1, togglePixel_get, Bool.xor_assoc]
        congr 1
        by_cases hr : r = screenRow py
        · by_cases hc : c = screenCol (px + k)
          · have := disj c hc
            simp only [bitsOn, hr, hc, true_and, List.mem_cons, exists_eq_or_imp] at this ⊢
            simp [hbit, show ¬ ∃ j ∈ ks, screenCol (px + k) = screenCol (px + j) ∧ b.getLsbD (7 - j) = true by
              rw [← hc]; exact disj c hc]
          · simp [bitsOn, hr, hc]
        · simp [bitsOn, hr]
      · rw [ih2]
        simp only [Bool.or_eq_true]
        constructor
        · rintro ((h | h) | ⟨c, r, hl, rfl, j, hj, hc, hj2⟩)
          · exact .inl h
          · exact .inr ⟨_, _, h, rfl, k, by simp, rfl, hbit⟩
          · rw [togglePixel_get] at hl
            have : c ≠ screenCol (px + k) := fun e => disj c e ⟨j, hj, hc, hj2⟩
            exact .inr ⟨c, _, by simpa [this] using hl, rfl, j, by simp [hj], hc, hj2⟩
        · rintro (h | ⟨c, r, hl, rfl, j, hj, hc, hj2⟩)
          · exact .inl (.inl h)
          · rcases List.mem_cons.1 hj with rfl | hj
            · exact .inl (.inr (hc ▸ hl))
            · have : c ≠ screenCol (px + k) := fun e => disj c e ⟨j, hj, hc, hj2⟩
              exact .inr ⟨c, _, by rw [togglePixel_get]; simpa [this] using hl, rfl, j, hj, hc, hj2⟩
    · have hd : drawBit px py b acc k = acc := by simp [drawBit, hbit]
      rw [hd] at ih1 ih2 ⊢
      have : ∀ c r, bitsOn px py b (k :: ks) c r ↔ bitsOn px py b ks c r := fun c r => by
        simp [bitsOn, hbit]
      refine ⟨fun c r => ?_, ?_⟩
      · rw [ih1]; congr 1; exact decide_eq_decide.2 (this c r).symm
      · rw [ih2]; simp only [this]

/-- One sprite row: each covered pixel is toggled once, and the flag is set when one of them was lit. -/
theorem drawByte_spec (px py : Nat) (b : Byte) (acc : Framebuffer × Bool) :
    (∀ c r, (drawByte px py b acc).1[r][c] =
      (acc.1[r][c] ^^ decide (bitsOn px py b [0, 1, 2, 3, 4, 5, 6, 7] c r))) ∧
    ((drawByte px py b acc).2 = true ↔
      acc.2 = true ∨ ∃ c r, acc.1[r][c] = true ∧ bitsOn px py b [0, 1, 2, 3, 4, 5, 6, 7] c r) :=
  drawBits_spec px py b _ (by decide) (by decide) acc

/-- The rows `row ≤ j < row + left` of the sprite at `base` cover pixel `(c, r)`. -/
abbrev rowsOn (s : State) (px py base row left : Nat) (c : Fin 64) (r : Fin 32) : Prop :=
  ∃ j, j < row + left ∧ row ≤ j ∧ bitsOn px (py + j) (s.byteAt (base + j)) [0, 1, 2, 3, 4, 5, 6, 7] c r

theorem screenRow_inj {py a b : Nat} (h : screenRow (py + a) = screenRow (py + b)) (hab : a < b)
    (hb : b < a + 32) : False := by
  have := congrArg Fin.val h; simp only [screenRow] at this; omega

@[simp] theorem writeVF_writeFb_writeVF (s : State) (a b : Byte) (fb fb' : Framebuffer) :
    (((s.writeFb fb).writeVF a).writeFb fb').writeVF b = (s.writeFb fb').writeVF b := by
  simp [State.writeVF, State.writeV, State.writeFb]

theorem xor_of_exclusive {p q r : Prop} [Decidable p] [Decidable q] [Decidable r] (h : r ↔ p ∨ q)
    (hx : p → ¬ q) : (decide p ^^ decide q) = decide r := by
  by_cases hp : p <;> by_cases hq : q <;> simp_all

/-- Drawing rows whose bytes all exist: the framebuffer and VF are the only things written. -/
theorem drawRows_spec (px py base left row : Nat) (collided : Bool) (s : State)
    (hr : base + row + left ≤ 4096) (h32 : left ≤ 32) :
    ∃ (fb : Framebuffer) (hit : Bool),
      drawRows px py base left row collided s =
        .next (if left = 0 then s else (s.writeFb fb).writeVF (collisionFlag hit)) ∧
      (∀ c r, fb[r][c] = (s.fb[r][c] ^^ decide (rowsOn s px py base row left c r))) ∧
      (hit = true ↔ collided = true ∨ ∃ c r, s.fb[r][c] = true ∧ rowsOn s px py base row left c r) := by
  induction left generalizing row collided s with
  | zero =>
    refine ⟨s.fb, collided, rfl, fun c r => ?_, ?_⟩
    · have : ¬ rowsOn s px py base row 0 c r := by rintro ⟨j, h2, h1, -⟩; omega
      simp [this]
    · constructor
      · exact .inl
      · rintro (h | ⟨c, r, -, j, h2, h1, -⟩)
        · exact h
        · omega
  | succ left ih =>
    obtain ⟨d1, d2⟩ := drawByte_spec px (py + row) (s.byteAt (base + row)) (s.fb, collided)
    set D := drawByte px (py + row) (s.byteAt (base + row)) (s.fb, collided) with hD
    obtain ⟨fb, hit, e, p1, p2⟩ := ih (row + 1) D.2 ((s.writeFb D.1).writeVF (collisionFlag D.2))
      (by omega) (by omega)
    have split : ∀ c r, rowsOn s px py base row (left + 1) c r ↔
        bitsOn px (py + row) (s.byteAt (base + row)) [0, 1, 2, 3, 4, 5, 6, 7] c r ∨
          rowsOn s px py base (row + 1) left c r := by
      intro c r
      constructor
      · rintro ⟨j, h2, h1, h3⟩
        rcases Nat.eq_or_lt_of_le h1 with rfl | h
        · exact .inl h3
        · exact .inr ⟨j, by omega, h, h3⟩
      · rintro (h | ⟨j, h2, h1, h3⟩)
        · exact ⟨row, by omega, le_rfl, h⟩
        · exact ⟨j, by omega, by omega, h3⟩
    have excl : ∀ c r, bitsOn px (py + row) (s.byteAt (base + row)) [0, 1, 2, 3, 4, 5, 6, 7] c r →
        ¬ rowsOn s px py base (row + 1) left c r := by
      rintro c r ⟨h, -⟩ ⟨j, h2, h1, h3, -⟩
      exact screenRow_inj (h.symm.trans h3) (by omega) (by omega)
    have rowsSame : ∀ c r, rowsOn ((s.writeFb D.1).writeVF (collisionFlag D.2)) px py base (row + 1) left c r ↔
        rowsOn s px py base (row + 1) left c r := fun c r => Iff.rfl
    have fbSame : ((s.writeFb D.1).writeVF (collisionFlag D.2)).fb = D.1 := rfl
    refine ⟨fb, hit, ?_, fun c r => ?_, ?_⟩
    · rw [drawRows, memRead_ok (by omega), orRaise_ok, ← hD, e]
      cases left with
      | zero =>
        have : fb = D.1 := by
          apply Vector.ext; intro i hi; apply Vector.ext; intro j hj
          have := p1 ⟨j, hj⟩ ⟨i, hi⟩
          have hno : ¬ rowsOn ((s.writeFb D.1).writeVF (collisionFlag D.2)) px py base (row + 1) 0
              ⟨j, hj⟩ ⟨i, hi⟩ := by rintro ⟨k, h2, h1, -⟩; omega
          simpa [hno, fbSame] using this
        have hh : hit = D.2 := by
          apply Bool.eq_iff_iff.2; rw [p2]
          constructor
          · rintro (h | ⟨c, r, -, k, h2, h1, -⟩)
            · exact h
            · omega
          · exact .inl
        simp [this, hh]
      | succ left => simp
    · rw [p1, fbSame, d1, Bool.xor_assoc]
      congr 1
      exact xor_of_exclusive ((split c r).trans (or_congr_right (rowsSame c r).symm)) (excl c r)
    · rw [p2, d2, fbSame]
      constructor
      · rintro ((h | ⟨c, r, hl, h⟩) | ⟨c, r, hl, h⟩)
        · exact .inl h
        · exact .inr ⟨c, r, hl, (split c r).2 (.inl h)⟩
        · have h := (rowsSame c r).1 h
          refine .inr ⟨c, r, ?_, (split c r).2 (.inr h)⟩
          rw [d1] at hl
          have : ¬ bitsOn px (py + row) (s.byteAt (base + row)) [0, 1, 2, 3, 4, 5, 6, 7] c r :=
            fun hb => excl c r hb h
          simpa [this] using hl
      · rintro (h | ⟨c, r, hl, h⟩)
        · exact .inl (.inl h)
        · rcases (split c r).1 h with h' | h'
          · exact .inl (.inr ⟨c, r, hl, h'⟩)
          · refine .inr ⟨c, r, ?_, h'⟩
            rw [d1]
            have : ¬ bitsOn px (py + row) (s.byteAt (base + row)) [0, 1, 2, 3, 4, 5, 6, 7] c r :=
              fun hb => excl c r hb h'
            simpa [this] using hl

/-- Rows past the end of memory: the rows before are drawn, then the first missing address is latched. -/
theorem drawRows_past_end (px py base m rest row : Nat) (collided : Bool) (s : State)
    (hm : base + row + m = 4096 ∨ (m = 0 ∧ 4096 ≤ base + row)) :
    ∃ u, drawRows px py base m row collided s = .next u ∧
      drawRows px py base (m + (rest + 1)) row collided s =
        .next (u.writeFault (some (.addressOutOfRange (base + row + m)))) := by
  induction m generalizing row collided s with
  | zero =>
    refine ⟨s, rfl, ?_⟩
    rw [Nat.zero_add, drawRows, memRead_error (by omega), orRaise_error]; rfl
  | succ m ih =>
    have hb : base + row < 4096 := by omega
    obtain ⟨u, h1, h2⟩ := ih (row + 1) _ _ (.inl (by omega))
    refine ⟨u, ?_, ?_⟩
    · rw [drawRows, memRead_ok hb, orRaise_ok]; exact h1
    · rw [show m + 1 + (rest + 1) = m + (rest + 1) + 1 by omega, drawRows, memRead_ok hb, orRaise_ok,
        show base + row + (m + 1) = base + (row + 1) + m by omega]
      exact h2

end Sys2Proof.Machine
end

