-- ==== Sys2Proof/Laws/PerInstr.lean ====
section
/-! SUPPORT. The family OwnRow, one lemma per constructor: the word of a well-formed instruction is selected
by a row of the decode table that builds the instruction back from it (30_encoding.md R66, R70). -/

namespace Sys2Proof.Laws.OwnRow

/-- Some row of R70 selects the word of `i` and reads every operand of `i` back from it. -/
def Statement (i : Instr) : Prop :=
  i.wf = true → ∃ r ∈ decodeTable, r.selects (encode i) = true ∧ r.build (encode i) = i

/-- Format NNN. -/
theorem ofNNN (op : Nat) (ho : op < 16) (nnn : BitVec 12) (p : Word) (hp : p.toNat = op * 4096)
    (build : Word → Instr) :
    (Row.mk p 0xF000 build).selects (wordNNN op nnn) = true := by
  rw [selects_iff, mask_F000, wordNNN_toNat _ _ ho, hp]; have := nnn.isLt; omega

/-- Format XKK. -/
theorem ofXKK (op : Nat) (ho : op < 16) (x : Reg) (kk : Byte) (p : Word) (hp : p.toNat = op * 4096)
    (build : Word → Instr) :
    (Row.mk p 0xF000 build).selects (wordXKK op x kk) = true := by
  rw [selects_iff, mask_F000, wordXKK_toNat _ _ _ ho, hp]; have := kk.isLt; have := x.isLt; omega

/-- Format XYO. -/
theorem ofXYO (op : Nat) (ho : op < 16) (x y : Reg) (n : Nat) (hn : n < 16) (p : Word)
    (hp : p.toNat = op * 4096 + n) (build : Word → Instr) :
    (Row.mk p 0xF00F build).selects (wordXYN op x y n) = true := by
  rw [selects_iff, mask_F00F, wordXYN_toNat _ _ _ _ ho hn, hp]; have := y.isLt; have := x.isLt; omega

/-- Format XYN. -/
theorem ofXYN (op : Nat) (ho : op < 16) (x y : Reg) (n : Nat) (hn : n < 16) (p : Word)
    (hp : p.toNat = op * 4096) (build : Word → Instr) :
    (Row.mk p 0xF000 build).selects (wordXYN op x y n) = true := by
  rw [selects_iff, mask_F000, wordXYN_toNat _ _ _ _ ho hn, hp]; have := y.isLt; have := x.isLt; omega

/-- Format XOO. -/
theorem ofXOO (op : Nat) (ho : op < 16) (x : Reg) (low : Nat) (hl : low < 256) (p : Word)
    (hp : p.toNat = op * 4096 + low) (build : Word → Instr) :
    (Row.mk p 0xF0FF build).selects (wordXOO op x low) = true := by
  rw [selects_iff, mask_F0FF, wordXOO_toNat _ _ _ ho hl, hp]; have := x.isLt; omega

theorem nop : Statement (.nop) := fun _ =>
  ⟨decodeTable[0], List.getElem_mem _, by decide, rfl⟩

theorem clearScreen : Statement (.clearScreen) := fun _ =>
  ⟨decodeTable[1], List.getElem_mem _, by decide, rfl⟩

theorem ret : Statement (.ret) := fun _ =>
  ⟨decodeTable[2], List.getElem_mem _, by decide, rfl⟩

theorem jump (nnn : BitVec 12) : Statement (.jump nnn) := fun _ =>
  ⟨decodeTable[3], List.getElem_mem _, ofNNN 1 (by decide) nnn _ rfl _, by
    simp [decodeTable, rowsControl, rowsEight, rowsMiddle, rowsF, encode]⟩

theorem call (nnn : BitVec 12) : Statement (.call nnn) := fun _ =>
  ⟨decodeTable[4], List.getElem_mem _, ofNNN 2 (by decide) nnn _ rfl _, by
    simp [decodeTable, rowsControl, rowsEight, rowsMiddle, rowsF, encode]⟩

theorem skipIfValEQ (x : Reg) (kk : Byte) : Statement (.skipIfValEQ x kk) := fun _ =>
  ⟨decodeTable[5], List.getElem_mem _, ofXKK 3 (by decide) x kk _ rfl _, by
    simp [decodeTable, rowsControl, rowsEight, rowsMiddle, rowsF, encode]⟩

theorem skipIfValNE (x : Reg) (kk : Byte) : Statement (.skipIfValNE x kk) := fun _ =>
  ⟨decodeTable[6], List.getElem_mem _, ofXKK 4 (by decide) x kk _ rfl _, by
    simp [decodeTable, rowsControl, rowsEight, rowsMiddle, rowsF, encode]⟩

theorem skipIfRegEQ (x y : Reg) : Statement (.skipIfRegEQ x y) := fun _ =>
  ⟨decodeTable[7], List.getElem_mem _, ofXYO 5 (by decide) x y 0 (by decide) _ rfl _, by
    simp [decodeTable, rowsControl, rowsEight, rowsMiddle, rowsF, encode]⟩

theorem setToVal (x : Reg) (kk : Byte) : Statement (.setToVal x kk) := fun _ =>
  ⟨decodeTable[8], List.getElem_mem _, ofXKK 6 (by decide) x kk _ rfl _, by
    simp [decodeTable, rowsControl, rowsEight, rowsMiddle, rowsF, encode]⟩

theorem addVal (x : Reg) (kk : Byte) : Statement (.addVal x kk) := fun _ =>
  ⟨decodeTable[9], List.getElem_mem _, ofXKK 7 (by decide) x kk _ rfl _, by
    simp [decodeTable, rowsControl, rowsEight, rowsMiddle, rowsF, encode]⟩

theorem setToReg (x y : Reg) : Statement (.setToReg x y) := fun _ =>
  ⟨decodeTable[10], List.getElem_mem _, ofXYO 8 (by decide) x y 0 (by decide) _ rfl _, by
    simp [decodeTable, rowsControl, rowsEight, rowsMiddle, rowsF, encode]⟩

theorem bitwiseOr (x y : Reg) : Statement (.bitwiseOr x y) := fun _ =>
  ⟨decodeTable[11], List.getElem_mem _, ofXYO 8 (by decide) x y 1 (by decide) _ rfl _, by
    simp [decodeTable, rowsControl, rowsEight, rowsMiddle, rowsF, encode]⟩

theorem bitwiseAnd (x y : Reg) : Statement (.bitwiseAnd x y) := fun _ =>
  ⟨decodeTable[12], List.getElem_mem _, ofXYO 8 (by decide) x y 2 (by decide) _ rfl _, by
    simp [decodeTable, rowsControl, rowsEight, rowsMiddle, rowsF, encode]⟩

theorem bitwiseXor (x y : Reg) : Statement (.bitwiseXor x y) := fun _ =>
  ⟨decodeTable[13], List.getElem_mem _, ofXYO 8 (by decide) x y 3 (by decide) _ rfl _, by
    simp [decodeTable, rowsControl, rowsEight, rowsMiddle, rowsF, encode]⟩

theorem addReg (x y : Reg) : Statement (.addReg x y) := fun _ =>
  ⟨decodeTable[14], List.getElem_mem _, ofXYO 8 (by decide) x y 4 (by decide) _ rfl _, by
    simp [decodeTable, rowsControl, rowsEight, rowsMiddle, rowsF, encode]⟩

theorem subReg (x y : Reg) : Statement (.subReg x y) := fun _ =>
  ⟨decodeTable[15], List.getElem_mem _, ofXYO 8 (by decide) x y 5 (by decide) _ rfl _, by
    simp [decodeTable, rowsControl, rowsEight, rowsMiddle, rowsF, encode]⟩

theorem shiftRight (x y : Reg) : Statement (.shiftRight x y) := fun _ =>
  ⟨decodeTable[16], List.getElem_mem _, ofXYO 8 (by decide) x y 6 (by decide) _ rfl _, by
    simp [decodeTable, rowsControl, rowsEight, rowsMiddle, rowsF, encode]⟩

theorem subFromReg (x y : Reg) : Statement (.subFromReg x y) := fun _ =>
  ⟨decodeTable[17], List.getElem_mem _, ofXYO 8 (by decide) x y 7 (by decide) _ rfl _, by
    simp [decodeTable, rowsControl, rowsEight, rowsMiddle, rowsF, encode]⟩

theorem shiftLeft (x y : Reg) : Statement (.shiftLeft x y) := fun _ =>
  ⟨decodeTable[18], List.getElem_mem _, ofXYO 8 (by decide) x y 14 (by decide) _ rfl _, by
    simp [decodeTable, rowsControl, rowsEight, rowsMiddle, rowsF, encode]⟩

theorem skipIfRegNE (x y : Reg) : Statement (.skipIfRegNE x y) := fun _ =>
  ⟨decodeTable[19], List.getElem_mem _, ofXYO 9 (by decide) x y 0 (by decide) _ rfl _, by
    simp [decodeTable, rowsControl, rowsEight, rowsMiddle, rowsF, encode]⟩

theorem setIndex (nnn : BitVec 12) : Statement (.setIndex nnn) := fun _ =>
  ⟨decodeTable[20], List.getElem_mem _, ofNNN 10 (by decide) nnn _ rfl _, by
    simp [decodeTable, rowsControl, rowsEight, rowsMiddle, rowsF, encode]⟩

theorem jumpV0Distance (nnn : BitVec 12) : Statement (.jumpV0Distance nnn) := fun _ =>
  ⟨decodeTable[21], List.getElem_mem _, ofNNN 11 (by decide) nnn _ rfl _, by
    simp [decodeTable, rowsControl, rowsEight, rowsMiddle, rowsF, encode]⟩

theorem rand (x : Reg) (kk : Byte) : Statement (.rand x kk) := fun _ =>
  ⟨decodeTable[22], List.getElem_mem _, ofXKK 12 (by decide) x kk _ rfl _, by
    simp [decodeTable, rowsControl, rowsEight, rowsMiddle, rowsF, encode]⟩

theorem drawSprite (x y : Reg) (n : Nat) : Statement (.drawSprite x y n) := fun hn =>
  ⟨decodeTable[23], List.getElem_mem _, ofXYN 13 (by decide) x y n (by simpa [Instr.wf, rowCountOk] using hn) _ rfl _, by
    have h : n < 16 := by simpa [Instr.wf, rowCountOk] using hn
    simp [decodeTable, rowsControl, rowsEight, rowsMiddle, encode, h]⟩

theorem skipIfKeyPressed (x : Reg) : Statement (.skipIfKeyPressed x) := fun _ =>
  ⟨decodeTable[24], List.getElem_mem _, ofXOO 14 (by decide) x 158 (by decide) _ rfl _, by
    simp [decodeTable, rowsControl, rowsEight, rowsMiddle, rowsF, encode]⟩

theorem skipIfKeyNotPressed (x : Reg) : Statement (.skipIfKeyNotPressed x) := fun _ =>
  ⟨decodeTable[25], List.getElem_mem _, ofXOO 14 (by decide) x 161 (by decide) _ rfl _, by
    simp [decodeTable, rowsControl, rowsEight, rowsMiddle, rowsF, encode]⟩

theorem getDelayTimer (x : Reg) : Statement (.getDelayTimer x) := fun _ =>
  ⟨decodeTable[26], List.getElem_mem _, ofXOO 15 (by decide) x 7 (by decide) _ rfl _, by
    simp [decodeTable, rowsControl, rowsEight, rowsMiddle, rowsF, encode]⟩

theorem waitKey (x : Reg) : Statement (.waitKey x) := fun _ =>
  ⟨decodeTable[27], List.getElem_mem _, ofXOO 15 (by decide) x 10 (by decide) _ rfl _, by
    simp [decodeTable, rowsControl, rowsEight, rowsMiddle, rowsF, encode]⟩

theorem setDelayTimer (x : Reg) : Statement (.setDelayTimer x) := fun _ =>
  ⟨decodeTable[28], List.getElem_mem _, ofXOO 15 (by decide) x 21 (by decide) _ rfl _, by
    simp [decodeTable, rowsControl, rowsEight, rowsMiddle, rowsF, encode]⟩

theorem setSoundTimer (x : Reg) : Statement (.setSoundTimer x) := fun _ =>
  ⟨decodeTable[29], List.getElem_mem _, ofXOO 15 (by decide) x 24 (by decide) _ rfl _, by
    simp [decodeTable, rowsControl, rowsEight, rowsMiddle, rowsF, encode]⟩

theorem incrementI (x : Reg) : Statement (.incrementI x) := fun _ =>
  ⟨decodeTable[30], List.getElem_mem _, ofXOO 15 (by decide) x 30 (by decide) _ rfl _, by
    simp [decodeTable, rowsControl, rowsEight, rowsMiddle, rowsF, encode]⟩

theorem loadFontChar (x : Reg) : Statement (.loadFontChar x) := fun _ =>
  ⟨decodeTable[31], List.getElem_mem _, ofXOO 15 (by decide) x 41 (by decide) _ rfl _, by
    simp [decodeTable, rowsControl, rowsEight, rowsMiddle, rowsF, encode]⟩

theorem bcd (x : Reg) : Statement (.bcd x) := fun _ =>
  ⟨decodeTable[32], List.getElem_mem _, ofXOO 15 (by decide) x 51 (by decide) _ rfl _, by
    simp [decodeTable, rowsControl, rowsEight, rowsMiddle, rowsF, encode]⟩

theorem loadIntoRam (x : Reg) : Statement (.loadIntoRam x) := fun _ =>
  ⟨decodeTable[33], List.getElem_mem _, ofXOO 15 (by decide) x 85 (by decide) _ rfl _, by
    simp [decodeTable, rowsControl, rowsEight, rowsMiddle, rowsF, encode]⟩

theorem loadFromRam (x : Reg) : Statement (.loadFromRam x) := fun _ =>
  ⟨decodeTable[34], List.getElem_mem _, ofXOO 15 (by decide) x 101 (by decide) _ rfl _, by
    simp [decodeTable, rowsControl, rowsEight, rowsMiddle, rowsF, encode]⟩

end Sys2Proof.Laws.OwnRow
end

