-- ==== Sys2Proof/Tests/Slice0.lean ====
section
/-! SUPPORT. Own tests. Expected values come from spec/95_test_vectors.md (the vector's id is in the theorem's
name) or, for decoding, from the bit patterns of 30_encoding.md R70. The witnesses at the end meet the
hypotheses of the obligations, at the boundaries of their ranges. -/

namespace Sys2Proof.Tests

open Sys2Proof.Machine

/-! ### Helpers -/

/-- One TICK of word `w` from `s`, and a check of the state it leaves. -/
def after (w : Nat) (s : State) (check : State → Bool) : Bool :=
  match step (s.withFetchWord 16 w) with
  | .next t => check t
  | .fault _ => false
  | .refused _ => false

/-- One transaction from `s`, and a check of the state it leaves. -/
def calling (c : HostCall) (s : State) (check : State → Bool) : Bool :=
  match step (s.writeCalls [c]) with
  | .next t => check t
  | .fault _ => false
  | .refused _ => false

/-- The RESET state with register 0 and register 1 set. -/
def two (a b : Byte) : State := (State.reset.writeV 0 a).writeV 1 b

/-- The RESET state with `I` set and bytes placed from there on. -/
def dataAt (i : Word) (bytes : List Byte) : State :=
  (State.reset.writeI i).writeMem (Memory.writeAll [] i.toNat bytes)

/-- The RESET state with `pc` set. -/
def pcAt (p : Word) : State := State.reset.writePc p

/-- The RESET state with one pixel lit. -/
def lit (s : State) (c : Fin 64) (r : Fin 32) : State := s.writeFb (togglePixel s.fb c r)

/-- The lit pixels `(column, row)` of rows 0, 1, 2 and 31. -/
def litPixels (s : State) : List (Nat × Nat) :=
  [(0 : Fin 32), 1, 2, 31].flatMap (fun r =>
    (List.finRange 64).filterMap (fun c => if s.pixel c r then some (c.val, r.val) else none))

/-- `pc` 0x202 and no fault: the end of every vector that neither faults nor moves `pc`. -/
def done (s : State) : Bool := s.pc == 0x202 && s.fault == none && s.reply == .ok

/-- `pc` 0x202 and this fault latched and handed to the host. -/
def faulted (f : LatchedFault) (s : State) : Bool :=
  s.pc == 0x202 && s.fault == some f && s.reply == .faulted f

/-! ### WellFormed -/

theorem test_rowCount_refused : rowCountOk 16 = false ∧ rowCountOk 15 = true := by decide

theorem test_drawSprite_illFormed : (Instr.drawSprite 0 0 16).wf = false ∧ (Instr.drawSprite 0 0 15).wf = true := by
  decide

/-! ### Decoding words written out from R70 -/

theorem test_decode_control :
    decode 0b0000000000000000 = .ok .nop ∧
    decode 0b0000000011101110 = .ok .ret ∧
    decode 0b0001001000110100 = .ok (.jump 0x234) ∧
    decode 0b0010111111111111 = .ok (.call 0xFFF) ∧
    decode 0b0011010110100101 = .ok (.skipIfValEQ 5 0xA5) ∧
    decode 0b0100111100000001 = .ok (.skipIfValNE 0xF 0x01) ∧
    decode 0b0101000100100000 = .ok (.skipIfRegEQ 1 2) ∧
    decode 0b1001000100100000 = .ok (.skipIfRegNE 1 2) ∧
    decode 0b1011001100000000 = .ok (.jumpV0Distance 0x300) := by decide

theorem test_decode_alu :
    decode 0b0110101001000010 = .ok (.setToVal 0xA 0x42) ∧
    decode 0b0111000011111111 = .ok (.addVal 0 0xFF) ∧
    decode 0b1000000100100000 = .ok (.setToReg 1 2) ∧
    decode 0b1000000100100001 = .ok (.bitwiseOr 1 2) ∧
    decode 0b1000000100100010 = .ok (.bitwiseAnd 1 2) ∧
    decode 0b1000000100100011 = .ok (.bitwiseXor 1 2) ∧
    decode 0b1000000100100100 = .ok (.addReg 1 2) ∧
    decode 0b1000000100100101 = .ok (.subReg 1 2) ∧
    decode 0b1000000100100110 = .ok (.shiftRight 1 2) ∧
    decode 0b1000000100100111 = .ok (.subFromReg 1 2) ∧
    decode 0b1000000100101110 = .ok (.shiftLeft 1 2) ∧
    decode 0b1100001100001111 = .ok (.rand 3 0x0F) := by decide

theorem test_decode_memory_display :
    decode 0b1010000100100011 = .ok (.setIndex 0x123) ∧
    decode 0b1111000000011110 = .ok (.incrementI 0) ∧
    decode 0b1111101000101001 = .ok (.loadFontChar 0xA) ∧
    decode 0b1111000000110011 = .ok (.bcd 0) ∧
    decode 0b1111001001010101 = .ok (.loadIntoRam 2) ∧
    decode 0b1111111101100101 = .ok (.loadFromRam 0xF) ∧
    decode 0b0000000011100000 = .ok .clearScreen ∧
    decode 0b1101111100011010 = .ok (.drawSprite 0xF 1 10) := by decide

theorem test_decode_keys_timers :
    decode 0b1110010110011110 = .ok (.skipIfKeyPressed 5) ∧
    decode 0b1110010110100001 = .ok (.skipIfKeyNotPressed 5) ∧
    decode 0b1111000100000111 = .ok (.getDelayTimer 1) ∧
    decode 0b1111001100001010 = .ok (.waitKey 3) ∧
    decode 0b1111000000010101 = .ok (.setDelayTimer 0) ∧
    decode 0b1111000000011000 = .ok (.setSoundTimer 0) := by decide

/-- The invalid words of V-D3 to V-D12. -/
theorem test_decode_invalid :
    [(0x00E1 : Word), 0x0123, 0x5121, 0x8128, 0x800F, 0x9001, 0xE000, 0xF000, 0xFFFF].all
      (fun w => decode w == .error (.invalid w)) = true := by decide

theorem test_decodeTableWord :
    decodeTableWord 16 0x8126 = some (.shiftRight 1 2) ∧ decodeTableWord 16 0x00E1 = none := by decide

theorem test_decodeBytes :
    decodeBytes [0xA1, 0x23, 0x99] = .ok (.setIndex 0x123, [0x99]) ∧
    decodeBytes [0xA1] = .error .tooShort := by decide

theorem test_encode : encode (.skipIfKeyNotPressed 7) = 0xE7A1 ∧ encode (.drawSprite 1 2 3) = 0xD123 := by decide

/-! ### The cycle -/

theorem test_V_E2 : after 0x0000 (pcAt 0xFFE) (fun t => t.pc == 0x1000 && t.fault == none) = true := by
  decide

theorem test_V_E3_E4 :
    after 0 (pcAt 0x1000) (fun t => t.pc == 0x1000 && t.fault == some (.addressOutOfRange 0x1000)) = true ∧
    after 0 (pcAt 0xFFF) (fun t => t.pc == 0xFFF && t.fault == some (.addressOutOfRange 0xFFF)) = true := by
  decide

theorem test_V_E6 : after 0x6005 (pcAt 0x201) (fun t => t.pc == 0x203 && t.reg 0 == 5) = true := by decide

theorem test_V_E7 :
    step (State.reset.writeFault (some (.decodeError 0xFFFF))) = .fault .tickNotAdmitted := rfl

theorem test_V_D3 : after 0x00E1 State.reset (faulted (.decodeError 0x00E1)) = true := by decide

/-! ### Control flow -/

theorem test_V_D1 : after 0x0000 State.reset done = true := by decide

theorem test_V_CF1 : after 0x1234 State.reset (fun t => t.pc == 0x234) = true := by decide

theorem test_V_CF4 : after 0x2300 (State.reset.writeSp 15)
    (fun t => t.pc == 0x300 && t.sp == 16 && t.stackAt 15 == 0x202) = true := by decide

theorem test_V_CF5 : after 0x2300 (State.reset.writeSp 16)
    (fun t => faulted (.stackOverflow 16) t && t.sp == 16) = true := by decide

theorem test_V_CF6_CF7 :
    after 0x3005 (two 5 0) (fun t => t.pc == 0x204) = true ∧
    after 0x3005 (two 6 0) (fun t => t.pc == 0x202) = true := by decide

theorem test_V_CF8_CF9 :
    after 0x4005 (two 5 0) (fun t => t.pc == 0x202) = true ∧
    after 0x4005 (two 6 0) (fun t => t.pc == 0x204) = true := by decide

theorem test_V_CF10 : after 0x5010 (two 3 3) (fun t => t.pc == 0x204) = true := by decide

theorem test_V_CF11_CF12 :
    after 0x9010 (two 3 3) (fun t => t.pc == 0x202) = true ∧
    after 0x9010 (two 3 4) (fun t => t.pc == 0x204) = true := by decide

theorem test_V_CF13 : after 0xB300 ((two 0x10 0).writeV 3 0x99) (fun t => t.pc == 0x310) = true := by
  decide

theorem test_V_CF15 : after 0xBFFF (two 0xFF 0) (fun t => t.pc == 0x10FE) = true := by decide

theorem test_V_CF16 : after 0x00EE State.reset (faulted .stackUnderflow) = true := by decide

theorem test_V_CF17 : after 0x00EE ((State.reset.writeStack 1 0x456).writeSp 2)
    (fun t => t.pc == 0x456 && t.sp == 1 && t.stackAt 1 == 0x456) = true := by decide

/-! ### Register ALU -/

theorem test_V_A1 : after 0x6A42 State.reset (fun t => done t && t.reg 0xA == 0x42) = true := by decide

theorem test_V_A2 : after 0x7001 ((two 0xFF 0).writeVF 9)
    (fun t => done t && t.reg 0 == 0 && t.reg 0xF == 9) = true := by decide

theorem test_V_A27 : after 0x8010 (two 0 0x77) (fun t => done t && t.reg 0 == 0x77) = true := by decide

theorem test_V_A28 : after 0x8011 ((two 0xF0 0x0F).writeVF 9)
    (fun t => done t && t.reg 0 == 0xFF && t.reg 0xF == 9) = true := by decide

theorem test_V_A29 : after 0x8012 (two 0xF0 0x3C) (fun t => done t && t.reg 0 == 0x30) = true := by decide

theorem test_V_A30 : after 0x8013 (two 0xFF 0x0F) (fun t => done t && t.reg 0 == 0xF0) = true := by decide

theorem test_S2 : after 0x8014 (two 250 10) (fun t => done t && t.reg 0 == 4 && t.reg 0xF == 1) = true := by
  decide

theorem test_V_A6 : after 0x8F14 ((two 0 100).writeVF 200) (fun t => done t && t.reg 0xF == 1) = true := by
  decide

theorem test_S3 : after 0x8015 (two 3 5) (fun t => done t && t.reg 0 == 254 && t.reg 0xF == 0) = true := by
  decide

theorem test_V_A9 : after 0x8015 (two 7 7) (fun t => done t && t.reg 0 == 0 && t.reg 0xF == 1) = true := by
  decide

theorem test_V_A15 : after 0x8017 (two 3 5) (fun t => done t && t.reg 0 == 2 && t.reg 0xF == 1) = true := by
  decide

theorem test_V_A17 : after 0x8F17 ((two 0 3).writeVF 5) (fun t => done t && t.reg 0xF == 0) = true := by
  decide

theorem test_V_A20 : after 0x8056 ((two 0x81 0).writeV 5 0xFF)
    (fun t => done t && t.reg 0 == 0x40 && t.reg 0xF == 1 && t.reg 5 == 0xFF) = true := by decide

theorem test_V_A21 : after 0x8F06 (State.reset.writeVF 3) (fun t => done t && t.reg 0xF == 0) = true := by
  decide

theorem test_V_A24 : after 0x80FE ((two 1 0).writeVF 7)
    (fun t => done t && t.reg 0 == 2 && t.reg 0xF == 0) = true := by decide

theorem test_V_A25 : after 0x8F0E (State.reset.writeVF 0x81) (fun t => done t && t.reg 0xF == 2) = true := by
  decide

/-- V-A32, the random byte given by the host's TICK call. -/
theorem test_V_A32 : (match step ((State.reset.withFetchWord 16 0xC30F).writeCalls [.tick 0xAB]) with
    | .next t => done t && t.reg 3 == 0x0B
    | _ => false) = true := by decide

/-- V-A33: a zero mask gives 0 whatever the free random byte is. -/
theorem test_V_A33 : ∃ t, step (State.reset.withFetchWord 16 0xC300) = .next t ∧ t.reg 3 = 0 :=
  ⟨_, rfl, BitVec.and_zero⟩

/-! ### Index and memory -/

theorem test_V_M1 : after 0xA123 State.reset (fun t => done t && t.I == 0x123) = true := by decide

theorem test_V_M2 : after 0xF01E (((two 2 0).writeI 0xFFFF).writeVF 7)
    (fun t => done t && t.I == 1 && t.reg 0xF == 7) = true := by decide

theorem test_S9_V_M4 :
    after 0xF029 (two 0x0A 0) (fun t => done t && t.I == 50) = true ∧
    after 0xF029 (two 0xFF 0) (fun t => done t && t.I == 0x4FB) = true := by decide

theorem test_V_M7 : after 0xF033 ((two 255 0).writeI 0x300) (fun t => done t && t.byteAt 0x300 == 2 &&
    t.byteAt 0x301 == 5 && t.byteAt 0x302 == 5 && t.I == 0x300) = true := by decide

theorem test_V_M8 : after 0xF033 ((two 254 0).writeI 0xFFE) (fun t => faulted (.addressOutOfRange 0x1000) t &&
    t.byteAt 0xFFE == 2 && t.byteAt 0xFFF == 5) = true := by decide

theorem test_V_M10 : after 0xF255 (((two 1 2).writeV 2 3).writeI 0xFFE)
    (fun t => faulted (.addressOutOfRange 0x1000) t && t.byteAt 0xFFE == 1 && t.byteAt 0xFFF == 2) = true := by
  decide

/-- A store above the font area keeps the register order and `I`. -/
theorem test_V_M11 : after 0xF155 ((two 8 9).writeI 0x300)
    (fun t => done t && t.byteAt 0x300 == 8 && t.byteAt 0x301 == 9 && t.I == 0x300) = true := by decide

theorem test_V_M13 : after 0xF165 (dataAt 0xFFF [0x42])
    (fun t => faulted (.addressOutOfRange 0x1000) t && t.reg 0 == 0x42 && t.reg 1 == 0) = true := by decide

theorem test_V_M14 : after 0xF065 (State.reset.writeI 0xFFFF) (faulted (.addressOutOfRange 0xFFFF)) = true := by
  decide

/-- V-M16: the font area is writable. -/
theorem test_V_M16 : Memory.read (Memory.write [] 0x000 0xAA) 0x000 = 0xAA :=
  Memory.read_write_self [] .nil 0 0xAA

/-- Writing back what an unlisted address reads as removes its cell. -/
theorem test_canonical_form :
    Memory.write [(0x300, 5)] 0x300 0 = [] ∧ Memory.write [] 0x300 5 = [(0x300, 5)] := by decide

/-! ### Display -/

theorem test_S7a : after 0xD011 ((dataAt 0x300 [0xFF]).writeV 0 60)
    (fun t => done t && t.reg 0xF == 0 && litPixels t ==
      [(0, 0), (1, 0), (2, 0), (3, 0), (60, 0), (61, 0), (62, 0), (63, 0)]) = true := by decide

theorem test_V_S1 : after 0xD012 (lit (dataAt 0x300 [0x80, 0x80]) 0 0)
    (fun t => done t && t.reg 0xF == 1 && litPixels t == [(0, 1)]) = true := by decide

theorem test_V_S4 : after 0xD012 (((dataAt 0x300 [0xC0, 0xC0]).writeV 0 62).writeV 1 31)
    (fun t => done t && t.reg 0xF == 0 && litPixels t == [(62, 0), (63, 0), (62, 31), (63, 31)]) = true := by
  decide

theorem test_V_S6 : after 0xD012 (lit (dataAt 0xFFF [0x80]) 0 0)
    (fun t => faulted (.addressOutOfRange 0x1000) t && t.reg 0xF == 1 && litPixels t == []) = true := by
  decide

theorem test_V_S7 : after 0xDF12 ((dataAt 0x300 [0xA0, 0x80]).writeVF 10)
    (fun t => done t && t.reg 0xF == 0 && litPixels t == [(10, 0), (12, 0), (10, 1)]) = true := by decide

theorem test_V_S9 : after 0x00E0 (lit (State.reset.writeVF 1) 5 1)
    (fun t => done t && t.reg 0xF == 1 && litPixels t == []) = true := by decide

/-! ### Keys and timers -/

theorem test_V_K1_K2 :
    after 0xE09E ((two 5 0).writeKey 5 true) (fun t => t.pc == 0x204) = true ∧
    after 0xE09E (two 5 0) (fun t => t.pc == 0x202) = true := by decide

theorem test_V_K3_K4 :
    after 0xE0A1 (two 5 0) (fun t => t.pc == 0x204) = true ∧
    after 0xE0A1 ((two 5 0).writeKey 5 true) (fun t => t.pc == 0x202) = true := by decide

theorem test_V_K5_K6 :
    after 0xE09E (two 0x10 0) (faulted (.keyIndexOutOfRange 0x10)) = true ∧
    after 0xE0A1 (two 0xFF 0) (faulted (.keyIndexOutOfRange 0xFF)) = true := by decide

theorem test_V_K7 : after 0xF50A ((State.reset.writeKey 2 true).writeKey 9 true)
    (fun t => done t && t.reg 5 == 2) = true := by decide

theorem test_V_K8 : after 0xF50A (State.reset.writeV 5 0x33)
    (fun t => t.pc == 0x200 && t.reg 5 == 0x33 && t.fault == none) = true := by decide

theorem test_V_K9 : after 0xF107 (State.reset.writeDT 0x2A) (fun t => done t && t.reg 1 == 0x2A) = true := by
  decide

theorem test_V_K10 : after 0xF015 (two 0x10 0) (fun t => done t && t.DT == 0x10 && t.ST == 0) = true := by
  decide

theorem test_V_K11 : after 0xF018 (two 0x01 0) (fun t => done t && t.ST == 0x01 && t.DT == 0) = true := by
  decide

/-! ### The other transactions -/

theorem test_V_K12_K13 :
    calling (.key 16 true) State.reset (fun t => t.keys == State.reset.keys && t.reply == .noResult) = true ∧
    calling (.key 3 false) (State.reset.writeKey 3 true) (fun t => t.keyAt 3 == false) = true := by decide

theorem test_V_T1_T2 :
    calling .tickTimers ((State.reset.writeDT 255).writeST 2)
      (fun t => t.DT == 254 && t.ST == 1 && t.reply == .playTone false) = true ∧
    calling .tickTimers ((State.reset.writeDT 254).writeST 1)
      (fun t => t.DT == 253 && t.ST == 0 && t.reply == .playTone true) = true := by decide

theorem test_V_T4 : calling .tickTimers State.reset
    (fun t => t.DT == 0 && t.ST == 0 && t.reply == .playTone false) = true := by decide

theorem test_V_R2 : calling (.loadRom [0x00, 0xE0, 0x12, 0x02]) State.reset
    (fun t => t.byteAt 0x200 == 0 && t.byteAt 0x201 == 0xE0 && t.byteAt 0x202 == 0x12 &&
      t.byteAt 0x203 == 0x02 && t.pc == 0x200 && t.reply == .ok) = true := by decide

theorem test_S10 : calling (.loadRom (List.replicate 3585 0xAA)) State.reset
    (fun t => t.fault == some (.romTooLarge 3585) && t.mem == []) = true := by decide +kernel

theorem test_V_E9 : calling .reset ((two 1 2).writeFault (some .stackUnderflow))
    (fun t => t.fault == none && t.reg 0 == 0 && t.pc == 0x200) = true := by decide

theorem test_fbRead : calling .fbRead (lit State.reset 1 1)
    (fun t => t.reply == .pixels (List.replicate 65 false ++ [true] ++ List.replicate 1982 false)) = true := by
  decide +kernel

theorem test_faultCodes :
    faultCode (.decodeError 0xFFFF) = 1 ∧ faultCode (.addressOutOfRange 0x1000) = 2 ∧
    faultCode (.stackOverflow 16) = 3 ∧ faultCode .stackUnderflow = 4 ∧ faultCode (.romTooLarge 3585) = 5 ∧
    faultCode (.keyIndexOutOfRange 0x10) = 6 ∧ faultInfo (.stackOverflow 16) = some 16 ∧
    faultInfo .stackUnderflow = none := by decide

/-! ### Witnesses: the hypotheses of each obligation, met together -/

theorem witness_DecodeOfEncode : (Instr.drawSprite 15 15 15).wf = true := by decide

theorem witness_EncodeOfDecode : decode 0x81F6 = .ok (.shiftRight 1 15) := by decide

theorem witness_DecodeTableRows : (decodeTable[34]'(by decide)).selects 0xFF65 = true := by decide

/-- One word of every row of R75, the rejection named. -/
theorem witness_DecodeRejects :
    [(0x0FFF : Word), 0x5001, 0x8008, 0x8FFF, 0x900F, 0xE09F, 0xFF66].all
      (fun w => decode w == .error (.invalid w)) = true := by decide

/-- The last place a fetch can read, with and without a TICK call pending. -/
theorem witness_StepRuns :
    (pcAt 0xFFE).fault = none ∧ (pcAt 0xFFE).pc.toNat + 1 ≤ 4095 ∧
    decode (wordOfBytes ((pcAt 0xFFE).byteAt 0xFFE) ((pcAt 0xFFE).byteAt 0xFFF)) = .ok .nop ∧
    (pcAt 0xFFE).calls = [] ∧ ((pcAt 0xFFE).writeCalls [.tick 0xAB]).calls = [.tick 0xAB] := by decide

theorem witness_FetchPastTheEnd : (pcAt 0xFFF).fault = none ∧ 4095 < (pcAt 0xFFF).pc.toNat + 1 := by decide

theorem witness_InvalidWord :
    (State.reset.withFetchWord 16 0x00E1).fault = none ∧
    fetch (State.reset.withFetchWord 16 0x00E1) = .ok 0x00E1 ∧
    decode 0x00E1 = .error (.invalid 0x00E1) := by decide

/-- A faulted machine, and LOAD_ROM on it on both sides of the size limit. -/
theorem witness_FaultedMachine :
    let s := State.reset.writeFault (some .stackUnderflow)
    s.fault = some .stackUnderflow ∧ s.calls = [] ∧
    (∃ t, hostCall (.loadRom (List.replicate 3584 0xAA)) s = .next t ∧ t.fault = some .stackUnderflow) ∧
    ∃ t, hostCall (.loadRom (List.replicate 3585 0xAA)) s = .next t ∧ t.fault = some (.romTooLarge 3585) := by
  refine ⟨rfl, rfl, ⟨_, rfl, ?_⟩, _, rfl, ?_⟩ <;> rw [loadRom_fault, List.length_replicate] <;> rfl

/-- A call of each kind at the head of the list, and an empty list. -/
theorem witness_PendingCalls :
    ([.reset, .loadRom [0x12], .key 3 true, .tick 0xAB, .tickTimers, .fbRead] : List HostCall).all (fun c =>
      match step (State.reset.writeCalls [c, .fbRead]) with
      | .next t => t.calls == [.fbRead]
      | _ => false) = true ∧ State.reset.calls = [] := by decide

/-- An admitted TICK that ends `ok`, and one that ends in a fault. -/
theorem witness_AdmittedTick :
    State.reset.fault = none ∧ (∃ t, tick State.reset = .next t ∧ t.fault = none) ∧
    ∃ t, tick (pcAt 0xFFF) = .next t ∧ t.fault = some (.addressOutOfRange 0xFFF) :=
  ⟨rfl, ⟨_, rfl, rfl⟩, _, rfl, rfl⟩

theorem witness_ZeroBytes :
    (pcAt 0xFFE).fault = none ∧ (pcAt 0xFFE).pc.toNat + 1 ≤ 4095 ∧ (pcAt 0xFFE).byteAt 0xFFE = 0 ∧
    (pcAt 0xFFE).byteAt 0xFFF = 0 := by decide

/-- The last bytes of memory stored by BCD and by LoadIntoRam, an address outside them, an operation that
stores nothing, and a whole TICK. -/
theorem witness_EngineWrites :
    (∃ t, exec (.bcd 0) (State.reset.writeI 0xFFD) = .next t) ∧
    ¬ stores (.bcd 0) (State.reset.writeI 0xFFD) 0xFFC ∧
    (∃ t, exec (.loadIntoRam 15) (State.reset.writeI 0xFF0) = .next t) ∧
    ¬ stores (.loadIntoRam 15) (State.reset.writeI 0xFF0) 0xFEF ∧
    (∃ t, exec (.loadFromRam 15) (State.reset.writeI 0xFF0) = .next t) ∧
    ¬ stores (.loadFromRam 15) (State.reset.writeI 0xFF0) 0xFFF ∧
    ∃ t, tick State.reset = .next t :=
  ⟨⟨_, rfl⟩, fun ⟨k, _, h⟩ => by simp [dataAddr] at h; omega,
    ⟨_, rfl⟩, fun ⟨k, _, h⟩ => by simp [dataAddr] at h; omega, ⟨_, rfl⟩, id, _, rfl⟩

theorem witness_SpecialState :
    (∃ t, exec (.setIndex 5) State.reset = .next t ∧ t.I ≠ State.reset.I) ∧
    (∃ t, exec (.setDelayTimer 0) (two 1 0) = .next t ∧ t.DT ≠ (two 1 0).DT) ∧
    (∃ t, exec (.setSoundTimer 0) (two 1 0) = .next t ∧ t.ST ≠ (two 1 0).ST) ∧
    (∃ t, exec .clearScreen (lit State.reset 63 31) = .next t ∧
      t.pixel 63 31 ≠ (lit State.reset 63 31).pixel 63 31) ∧
    ∃ t, exec (.call 0x300) State.reset = .next t ∧ t.sp ≠ State.reset.sp :=
  ⟨⟨_, rfl, by decide⟩, ⟨_, rfl, by decide⟩, ⟨_, rfl, by decide⟩, ⟨_, rfl, by decide⟩, _, rfl, by decide⟩

theorem witness_VFChanges :
    (∃ t, exec (.addReg 0 1) (two 0xFF 1) = .next t ∧ t.reg regF ≠ (two 0xFF 1).reg regF) ∧
    ∃ t, exec (.setToVal 15 9) State.reset = .next t ∧ t.reg regF ≠ State.reset.reg regF :=
  ⟨⟨_, rfl, by decide⟩, _, rfl, by decide +kernel⟩

theorem witness_OneFault :
    (∃ t f, exec (.call 0) (State.reset.writeSp 16) = .next t ∧ t.fault = some f) ∧
    (∃ t f, exec .ret State.reset = .next t ∧ t.fault = some f) ∧
    (∃ t f, exec (.drawSprite 0 0 1) (State.reset.writeI 0x1000) = .next t ∧ t.fault = some f) ∧
    (∃ t f, exec (.bcd 0) (State.reset.writeI 0xFFE) = .next t ∧ t.fault = some f) ∧
    (∃ t f, exec (.loadIntoRam 1) (State.reset.writeI 0xFFF) = .next t ∧ t.fault = some f) ∧
    (∃ t f, exec (.loadFromRam 1) (State.reset.writeI 0xFFF) = .next t ∧ t.fault = some f) ∧
    (∃ t f, exec (.skipIfKeyPressed 0) (two 0x10 0) = .next t ∧ t.fault = some f) ∧
    ∃ t f, exec (.skipIfKeyNotPressed 0) (two 0x10 0) = .next t ∧ t.fault = some f :=
  ⟨⟨_, _, rfl, rfl⟩, ⟨_, _, rfl, rfl⟩, ⟨_, _, rfl, rfl⟩, ⟨_, _, rfl, rfl⟩, ⟨_, _, rfl, rfl⟩, ⟨_, _, rfl, rfl⟩,
    ⟨_, _, rfl, rfl⟩, _, _, rfl, rfl⟩

theorem witness_OnlyRand : (∀ x kk, Instr.addReg 0 1 ≠ .rand x kk) ∧ ∃ t, exec (.addReg 0 1) (two 0xFF 1) = .next t :=
  ⟨by simp, _, rfl⟩

theorem witness_SoundTimer : ∃ t, exec (.getDelayTimer 0) State.reset = .next t := ⟨_, rfl⟩

/-- The last address an idle loop can stand at. -/
theorem witness_Jump :
    let s := (pcAt 0xFFE).withFetchWord 16 0x1FFE
    s.fault = none ∧ s.pc.toNat = (0xFFE : BitVec 12).toNat ∧ fetch s = .ok (wordNNN 0x1 0xFFE) := by decide

theorem witness_Nop : bits 0x0FFF 15 12 = 0x0 ∧ (0x0FFF : Word) ≠ 0x0000 ∧ (0x0FFF : Word) ≠ 0x00E0 ∧
    (0x0FFF : Word) ≠ 0x00EE := by decide

/-- The last key; the indices on both sides of the range change none. -/
theorem witness_KeyCall :
    (∃ t, hostCall (.key 15 true) State.reset = .next t ∧ t.keyAt 15 ≠ State.reset.keyAt 15) ∧
    (∃ t, hostCall (.key (-1) true) State.reset = .next t ∧ ∀ k, t.keyAt k = State.reset.keyAt k) ∧
    ∃ t, hostCall (.key 16 true) State.reset = .next t ∧ ∀ k, t.keyAt k = State.reset.keyAt k :=
  ⟨⟨_, rfl, by decide⟩, ⟨_, rfl, by decide⟩, _, rfl, by decide⟩

theorem witness_SkipIfReg : ∃ k, 0 < k ∧ k < 16 ∧ 15 ≤ k := ⟨15, by decide⟩

/-- A target of 0xFFF, the lowest that faults at the next fetch. -/
theorem witness_JumpV0 : ∃ t, exec (.jumpV0Distance 0xF00) (two 0xFF 0) = .next t ∧ 0xFFF ≤ t.pc.toNat :=
  ⟨_, rfl, by decide⟩

theorem witness_Call : (State.reset.writeSp 15).sp.val < 16 := by decide

theorem witness_Return : (State.reset.writeSp 16).sp.val = (15 : Fin 16).val + 1 ∧
    (State.reset.writeSp 1).sp.val = (0 : Fin 16).val + 1 := by decide

theorem witness_StackMisuse : (State.reset.writeSp 16).sp.val = 16 ∧ State.reset.sp.val = 0 := by decide

/-- The last room on the stack, and a body that left another value in a slot above `sp`. -/
theorem witness_ReturnResumes : (State.reset.writeSp 15).sp.val < 16 ∧ State.reset.sp.val < 16 ∧
    ∃ t, exec (.call 0x300) State.reset = .next t ∧
      ∃ u : State, u.sp = t.sp ∧ (∀ j : Fin 16, j.val < u.sp.val → u.stackAt j = t.stackAt j) ∧
        u.stackAt 1 ≠ t.stackAt 1 :=
  ⟨by decide, by decide, _, rfl, ((State.reset.writeStack 0 0x200).writeSp 1).writeStack 1 0x302,
    rfl, by decide, by decide⟩

/-- Both sides of the condition on the destination register. -/
theorem witness_Flags : (0 : Reg) ≠ regF ∧ (15 : Reg) = regF := by decide

theorem witness_Bcd : Memory.wf (State.reset.writeI 0xFFD).mem ∧ dataAddr (State.reset.writeI 0xFFD) 2 ≤ 0xFFF := by
  decide

theorem witness_LoadIntoRam :
    Memory.wf (State.reset.writeI 0xFF0).mem ∧ dataAddr (State.reset.writeI 0xFF0) (15 : Reg).val ≤ 0xFFF := by
  decide

theorem witness_LoadFromRam : dataAddr (State.reset.writeI 0xFFF) (0 : Reg).val ≤ 0xFFF := by decide

/-- A first missing byte that is the third, and one that is the first, of each store. -/
theorem witness_StoresPastTheEnd :
    Memory.wf (State.reset.writeI 0xFFE).mem ∧ 0xFFF < dataAddr (State.reset.writeI 0xFFE) 2 ∧
    dataAddr (State.reset.writeI 0xFFE) 1 ≤ 0xFFF ∧ dataAddr (State.reset.writeI 0xFFE) 0 ≤ 0xFFF ∧
    0xFFF < dataAddr (State.reset.writeI 0x1000) 2 ∧
    0xFFF < dataAddr (State.reset.writeI 0xFFE) (2 : Reg).val ∧
    0xFFF < dataAddr (State.reset.writeI 0x1000) (0 : Reg).val := by decide

theorem witness_LoadPastTheEnd :
    0xFFF < dataAddr (State.reset.writeI 0xFFF) (1 : Reg).val ∧
    0xFFF < dataAddr (State.reset.writeI 0x1000) (0 : Reg).val := by decide

/-- The last word of memory, stored whole, half (the BCD run raises after it), and by the longest ROM. -/
theorem witness_StoredBytes :
    Memory.wf (State.reset.writeI 0xFF0).mem ∧ (0xFFE : Word).toNat + 1 ≤ 0xFFF ∧
    overlaidWord ((regsUpTo 15).map (two 0 0).reg) 0xFF0 ((two 0 0).writeV 15 7) 0xFFE = 0x0000 ∧
    overlaidWord (bcdDigits 254) 0xFFF (dataAt 0x300 [0xAA]) 0xFFE = 0x0002 ∧
    (List.replicate 3584 (0xAA : Byte)).length ≤ 3584 := by
  refine ⟨by decide, by decide, by decide, by decide, ?_⟩
  rw [List.length_replicate]

theorem witness_CanonicalMemories :
    Memory.wf [(0xFFE, 1), (0xFFF, 2)] ∧
    ∀ a, Memory.read [(0xFFE, 1), (0xFFF, 2)] a = Memory.read (Memory.writeAll [] 0xFFE [1, 2]) a := by
  have h : Memory.writeAll [] 0xFFE [1, 2] = [(0xFFE, 1), (0xFFF, 2)] := by decide
  exact ⟨by decide, fun a => by rw [h]⟩

theorem witness_DrawSprite :
    15 ≤ 15 ∧ (State.reset.writeI 0xFF1).I.toNat + 15 ≤ 0x1000 ∧
    ¬ (State.reset.writeI 0xFFFF).I.toNat + 0 ≤ 0x1000 := by decide

theorem witness_DrawPastTheEnd :
    2 ≤ 15 ∧ 1 = 0x1000 - (State.reset.writeI 0xFFF).I.toNat ∧ 1 < 2 ∧
    0 = 0x1000 - (State.reset.writeI 0x1000).I.toNat ∧ 0 < 2 := by decide

theorem witness_DrawingTwice :
    15 ≤ 15 ∧ (State.reset.writeI 0xFF1).I.toNat + 15 ≤ 0x1000 ∧ (0 : Reg) ≠ regF ∧ (1 : Reg) ≠ regF := by decide

theorem witness_KeySkips : ((two 15 0).reg 0).toNat = (15 : Fin 16).val ∧ ((two 0 0).reg 0).toNat = (0 : Fin 16).val := by
  decide

theorem witness_KeySkipOutOfRange : 0xF < ((two 0x10 0).reg 0).toNat := by decide

theorem witness_WaitKey :
    ((State.reset.writeKey 15 true).keyAt 15 = true ∧
      ∀ j : Fin 16, j < 15 → (State.reset.writeKey 15 true).keyAt j = false) ∧
    ∀ k, State.reset.keyAt k = false := by decide

theorem witness_LoadRom :
    Memory.wf State.reset.mem ∧ (List.replicate 3584 (0xAA : Byte)).length ≤ 3584 ∧
    3584 < (List.replicate 3585 (0xAA : Byte)).length := by
  refine ⟨by decide, ?_, ?_⟩ <;> rw [List.length_replicate]
  decide

/-- A state other than reset, with an entry on the stack, a cell in memory and a fault latched, and a step
from it without the fault. -/
theorem witness_StepKeeps :
    let s := ((((pcAt 0xFFE).writeStack 0 0x202).writeSp 1).writeMem [(0x300, 7)])
    s.Inv ∧ (∃ t, step s = .next t) ∧ (s.writeFault (some (.stackOverflow 16))).Inv :=
  ⟨⟨by decide, by decide, by decide +kernel, fun _ h => by cases h⟩, ⟨_, rfl⟩,
    ⟨by decide, by decide, by decide +kernel, fun _ h => by cases h; rfl⟩⟩

end Sys2Proof.Tests
end

section
/-! RESET (10_state.md R41, 70_reset_and_hazards.md R200): what the parts of the RESET state read as, and what
the transaction answers. -/

namespace Sys2Proof.Machine

/-! ### The contents of memory after RESET -/

theorem Memory.unlisted_font {a : Nat} (h : a < Config.fontBytes) :
    Memory.unlisted a = Config.fontByte a := if_pos h

theorem Memory.unlisted_above_font {a : Nat} (h : Config.fontBytes ≤ a) :
    Memory.unlisted a = 0 := if_neg (Nat.not_lt.2 h)

/-! ### The views of the RESET state -/

@[simp] theorem State.reset_reg (r : Reg) : State.reset.reg r = 0 :=
  Vector.getElem_replicate r.isLt

@[simp] theorem State.reset_stackAt (j : Fin 16) : State.reset.stackAt j = 0 :=
  Vector.getElem_replicate j.isLt

@[simp] theorem State.reset_keyAt (k : Fin 16) : State.reset.keyAt k = false :=
  Vector.getElem_replicate k.isLt

@[simp] theorem State.reset_pixel (c : Fin 64) (r : Fin 32) : State.reset.pixel c r = false := by
  simp [State.pixel, State.reset]

@[simp] theorem State.reset_byteAt (a : Nat) : State.reset.byteAt a = Memory.unlisted a :=
  Memory.read_nil a

/-! ### The transaction -/

theorem hostCall_reset (s : State) : hostCall .reset s = .next (hostReset s) := rfl

/-- RESET leaves the memory of the RESET state, whatever was stored before. -/
theorem hostReset_byteAt (s : State) (a : Nat) : (hostReset s).byteAt a = Memory.unlisted a := by
  simp [hostReset]

/-- Settles O55: `hostReset` is `State.reset` but for the pending calls and the random bytes, which no
element of R41 reads, so each element is the view of `State.reset`. -/
theorem resetBuildsTheListedState : Obligations.ResetBuildsTheListedState := by
  intro s
  refine ⟨hostReset s, hostCall_reset s, rfl, rfl, ?regs, rfl, ?stack, rfl, rfl, rfl, ?keys, ?screen,
    ?font, ?aboveFont, rfl⟩
  case regs => simp [hostReset]
  case stack => simp [hostReset]
  case keys => simp [hostReset]
  case screen => simp [hostReset]
  case font =>
    intro a ha
    rw [hostReset_byteAt, Memory.unlisted_font ha]
  case aboveFont =>
    intro a ha _
    rw [hostReset_byteAt, Memory.unlisted_above_font ha]

end Sys2Proof.Machine
end

section
/-! The execution cycle (40_execution_cycle.md): which parts of the block an update keeps, how a TICK ends that
raises before execute (R86, R89), and what the engine may store to (R98). -/

namespace Sys2Proof.Machine

/-! ### Frames -/

theorem Part.same_trans {p : Part} {s t u : State} (hst : p.same s t) (htu : p.same t u) : p.same s u := by
  cases p with
  | pc | index | delay | sound | latch => exact Eq.trans htu hst
  | regs | keys | memory => exact fun k => (htu k).trans (hst k)
  | screen => exact fun c r => (htu c r).trans (hst c r)
  | stack => exact ⟨htu.1.trans hst.1, fun j => (htu.2 j).trans (hst.2 j)⟩

/-- Two changes one after the other keep every part that neither of them lists. -/
theorem keepsParts_trans {ps qs : List Part} {s t u : State} (hst : keepsParts ps s t)
    (htu : keepsParts qs t u) : keepsParts (ps ++ qs) s u := by
  intro p hp
  rw [List.mem_append, not_or] at hp
  obtain ⟨hps, hqs⟩ := hp
  exact Part.same_trans (hst p hps) (htu p hqs)

theorem keepsParts_writePc (s : State) (v : Word) : keepsParts [.pc] s (s.writePc v) := by
  intro p hp
  cases p with
  | pc => simp at hp
  | _ => simp [Part.same]

theorem keepsParts_writeFault (s : State) (f : Option LatchedFault) :
    keepsParts [.latch] s (s.writeFault f) := by
  intro p hp
  cases p with
  | latch => simp at hp
  | _ => simp [Part.same]

/-- The result handed to the host is no part of the block (log 6). -/
theorem keepsParts_writeReply (s : State) (r : Reply) : keepsParts [] s (s.writeReply r) := by
  intro p _
  cases p <;> simp [Part.same]

/-! ### A TICK that raises before execute -/

/-- A cycle that ends by raising `f` makes the TICK end with `f` latched and handed to the host (R91, R176). -/
theorem tick_of_cycle_raises {s u : State} {f : LatchedFault} (hs : s.running)
    (hc : cycle s = .next (u.writeFault (some f))) :
    tick s = .next ((u.writeFault (some f)).writeReply (.faulted f)) := by
  rw [tick_running hs, hc, answerTick_next]
  rfl

theorem cycle_decode_error {s : State} {w : Word} {e : Reject} (hf : fetch s = .ok w)
    (hd : decode w = .error e) :
    cycle s = .next ((advance s).writeFault (some (.decodeError w))) := by
  rw [cycle, hf, orRaise_ok, decodeAndExecute_error hd]

/-- Settles O7: the failing fetch is the whole cycle, so the latch and the reply are all that is written. -/
theorem fetchPastTheEndLatchesAddress : Obligations.FetchPastTheEndLatchesAddress := by
  intro s hs hpc
  exact ⟨_, tick_of_cycle_raises hs (cycle_fetch_error hpc), rfl, rfl, rfl,
    keepsParts_trans (keepsParts_writeFault s _) (keepsParts_writeReply _ _)⟩

/-- Settles O8: the cycle advances `pc`, then raises; the reply is the only write after that. -/
theorem invalidWordLatchesDecodeErrorAfterAdvance :
    Obligations.InvalidWordLatchesDecodeErrorAfterAdvance := by
  intro s w hs hf hd
  have raised : keepsParts [.pc, .latch] s ((advance s).writeFault (some (.decodeError w))) :=
    keepsParts_trans (keepsParts_writePc s _) (keepsParts_writeFault _ _)
  exact ⟨_, tick_of_cycle_raises hs (cycle_decode_error hf hd), rfl, rfl, rfl,
    keepsParts_trans raised (keepsParts_writeReply _ _)⟩

/-! ### What the engine stores to -/

/-- A run from `s` that answers `r` writes no key, and no byte at an address outside `addrs`. -/
def storesOnly (addrs : Nat → Prop) (s : State) (r : Result) : Prop :=
  ∀ t, r = .next t →
    (∀ k, t.keyAt k = s.keyAt k) ∧ ∀ a, ¬ addrs a → t.byteAt a = s.byteAt a

section StoresOnly

variable {addrs : Nat → Prop} {s : State}

theorem storesOnly_next {t : State} (hk : t.keys = s.keys) (hm : t.mem = s.mem) :
    storesOnly addrs s (.next t) := by
  rintro _ ⟨⟩
  exact ⟨fun k => by rw [State.keyAt, hk, State.keyAt], fun a _ => by rw [State.byteAt, hm, State.byteAt]⟩

/-- A run may be judged from a later state with the same keys and memory. -/
theorem storesOnly_of_same {s' : State} {r : Result} (hk : s'.keys = s.keys) (hm : s'.mem = s.mem)
    (h : storesOnly addrs s' r) : storesOnly addrs s r := by
  intro t ht
  obtain ⟨keys, bytes⟩ := h t ht
  obtain ⟨keys', bytes'⟩ := storesOnly_next (addrs := addrs) hk hm s' rfl
  exact ⟨fun k => (keys k).trans (keys' k), fun a ha => (bytes a ha).trans (bytes' a ha)⟩

theorem storesOnly_mono {more : Nat → Prop} {r : Result} (h : storesOnly addrs s r)
    (hsub : ∀ a, addrs a → more a) : storesOnly more s r := by
  intro t ht
  obtain ⟨keys, bytes⟩ := h t ht
  exact ⟨keys, fun a ha => bytes a fun hin => ha (hsub a hin)⟩

/-- A primitive that raises stores nothing (R176), so only its continuation counts. -/
theorem storesOnly_orRaise {α : Type} {p : Except LatchedFault α} {k : α → Result}
    (h : ∀ v, p = .ok v → storesOnly addrs s (k v)) : storesOnly addrs s (orRaise p s k) := by
  cases p with
  | error f => exact storesOnly_next rfl rfl
  | ok v => exact h v rfl

theorem storesOnly_answerTick {r : Result} (h : storesOnly addrs s r) :
    storesOnly addrs s (answerTick r) := by
  cases r with
  | next t =>
    rintro _ ⟨⟩
    exact h t rfl
  | fault _ | refused _ => exact nofun

theorem storesOnly_skipIf (c : Bool) : storesOnly addrs s (.next (skipIf c s)) := by
  rw [skipIf_eq]
  exact storesOnly_next rfl rfl

theorem storesOnly_loadRegs (base : Nat) (rs : List Reg) (s : State) :
    storesOnly addrs s (loadRegs base rs s) := by
  induction rs generalizing base s with
  | nil => exact storesOnly_next rfl rfl
  | cons r rs ih => exact storesOnly_orRaise fun b _ => storesOnly_of_same rfl rfl (ih _ (s.writeV r b))

theorem storesOnly_drawRows (px py base left row : Nat) (collided : Bool) (s : State) :
    storesOnly addrs s (drawRows px py base left row collided s) := by
  induction left generalizing row collided s with
  | zero => exact storesOnly_next rfl rfl
  | succ left ih => exact storesOnly_orRaise fun _ _ => storesOnly_of_same rfl rfl (ih _ _ _)

/-- A run of stores, whole or cut short by a fault, writes inside `base ..< base + vs.length` (R54, R96). -/
theorem storesOnly_storeBytes (base : Nat) (vs : List Byte) (s : State) :
    storesOnly (fun a => base ≤ a ∧ a < base + vs.length) s (storeBytes base vs s) := by
  rw [storeBytes_eq]
  split
  case isTrue =>
    rintro _ ⟨⟩
    exact ⟨fun _ => rfl, fun a ha => Memory.read_writeAll_other _ _ _ _ (by omega)⟩
  case isFalse =>
    rintro _ ⟨⟩
    exact ⟨fun _ => rfl, fun a ha => Memory.read_writeAll_other _ _ _ _ (by rw [List.length_take]; omega)⟩

theorem execBcd_storesOnly (x : Reg) (s : State) : storesOnly (stores (.bcd x) s) s (execBcd x s) := by
  refine storesOnly_mono (storesOnly_storeBytes _ _ s) fun a ha => ?_
  obtain ⟨hlo, hhi⟩ := ha
  have hlen : (bcdDigits (s.reg x)).length = 3 := rfl
  simp only [dataAddr, hlen] at hlo hhi
  exact ⟨a - s.I.toNat, by omega, by simp only [dataAddr]; omega⟩

theorem execLoadIntoRam_storesOnly (x : Reg) (s : State) :
    storesOnly (stores (.loadIntoRam x) s) s (execLoadIntoRam x s) := by
  refine storesOnly_mono (storesOnly_storeBytes _ _ s) fun a ha => ?_
  obtain ⟨hlo, hhi⟩ := ha
  simp only [dataAddr, List.length_map, regsUpTo_length] at hlo hhi
  exact ⟨a - s.I.toNat, by omega, by simp only [dataAddr]; omega⟩

theorem execWaitKey_storesOnly (x : Reg) (s : State) : storesOnly addrs s (execWaitKey x s) := by
  unfold execWaitKey
  cases firstPressed s with
  | some _ | none => exact storesOnly_next rfl rfl

theorem execRet_storesOnly (s : State) : storesOnly addrs s (execRet s) := by
  refine storesOnly_orRaise fun p hp => ?_
  by_cases h : 0 < s.sp.val
  · rw [pop_ok h] at hp
    cases hp
    exact storesOnly_next rfl rfl
  · rw [pop_error h] at hp
    cases hp

theorem execCall_storesOnly (nnn : BitVec 12) (s : State) : storesOnly addrs s (execCall nnn s) := by
  refine storesOnly_orRaise fun u hu => ?_
  by_cases h : s.sp.val < 16
  · rw [push_ok h] at hu
    cases hu
    exact storesOnly_next rfl rfl
  · rw [push_error h] at hu
    cases hu

end StoresOnly

/-- An operation stores to its own addresses only (R54, R98). Outside the groups named here an operation
writes one state without touching keys or memory. -/
theorem exec_storesOnly (i : Instr) (s : State) : storesOnly (stores i s) s (exec i s) := by
  cases i with
  | bcd x => exact execBcd_storesOnly x s
  | loadIntoRam x => exact execLoadIntoRam_storesOnly x s
  | loadFromRam x => exact storesOnly_loadRegs _ _ s
  | drawSprite x y n => exact storesOnly_drawRows _ _ _ _ _ _ s
  | ret => exact execRet_storesOnly s
  | call nnn => exact execCall_storesOnly nnn s
  | waitKey x => exact execWaitKey_storesOnly x s
  | skipIfKeyPressed _ | skipIfKeyNotPressed _ =>
    exact storesOnly_orRaise fun _ _ => storesOnly_skipIf _
  | skipIfValEQ _ _ | skipIfValNE _ _ | skipIfRegEQ _ _ | skipIfRegNE _ _ => exact storesOnly_skipIf _
  | _ => exact storesOnly_next rfl rfl

/-! ### A whole TICK -/

/-- The addresses that the operation fetched and decoded in `s` stores to. -/
def tickStores (s : State) (a : Nat) : Prop :=
  ∃ w i, fetch s = .ok w ∧ decode w = .ok i ∧ stores i s a

/-- Where an operation stores does not depend on `pc`, so the advance (R88) does not move it. -/
theorem stores_advance (i : Instr) (s : State) : stores i (advance s) = stores i s := rfl

theorem cycle_storesOnly (s : State) : storesOnly (tickStores s) s (cycle s) := by
  refine storesOnly_orRaise fun w hw => storesOnly_of_same (s' := advance s) rfl rfl ?_
  cases hd : decode w with
  | error e =>
    rw [decodeAndExecute_error hd]
    exact storesOnly_next rfl rfl
  | ok i =>
    rw [decodeAndExecute_ok hd]
    refine storesOnly_mono (exec_storesOnly i (advance s)) fun a ha => ?_
    rw [stores_advance] at ha
    exact ⟨w, i, hw, hd, ha⟩

theorem tick_storesOnly (s : State) : storesOnly (tickStores s) s (tick s) := by
  cases hf : s.fault with
  | some f =>
    rw [tick_faulted hf]
    exact nofun
  | none =>
    rw [tick_running hf]
    exact storesOnly_answerTick (cycle_storesOnly s)

/-- Settles O12: `exec_storesOnly` for an operation, `tick_storesOnly` for a TICK. -/
theorem engineWritesNoKeyAndOnlyItsStoredBytes : Obligations.EngineWritesNoKeyAndOnlyItsStoredBytes := by
  refine ⟨fun i s t ht => exec_storesOnly i s t ht, fun s t ht => ?_⟩
  obtain ⟨keys, bytes⟩ := tick_storesOnly s t ht
  refine ⟨keys, fun a ha => bytes a ?_⟩
  rintro ⟨w, i, hw, hd, hst⟩
  exact ha w i hw hd hst

end Sys2Proof.Machine
end

section
/-! Control flow (41_control_flow.md): which words the decode table holds in the 0nnn group, and Nop. -/

namespace Sys2Proof

/-! ### The 0nnn group of the decode table (30_encoding.md R70, R75) -/

/-- The opcode nibble `n0` is what the mask 0xF000 keeps of a word (R66). -/
theorem bits_15_12_mul (w : Word) : bits w 15 12 * 4096 = (w &&& 0xF000).toNat := by
  have := word_lt w
  rw [mask_F000, bits]
  omega

/-- Every mask of R70 fixes the opcode nibble. -/
theorem table_masks_fix_opcode : ∀ r ∈ decodeTable, r.mask &&& 0xF000 = 0xF000 := by decide

/-- A word and the row that selects it have the same opcode nibble. -/
theorem bits_15_12_of_selects {r : Row} (hr : r ∈ decodeTable) {w : Word} (h : r.selects w = true) :
    bits w 15 12 = bits r.pattern 15 12 := by
  have masked : w &&& r.mask = r.pattern := by simpa [Row.selects] using h
  have kept : w &&& 0xF000 = r.pattern &&& 0xF000 := by
    rw [← masked, BitVec.and_assoc, table_masks_fix_opcode r hr]
  apply Nat.eq_of_mul_eq_mul_right (show 0 < 4096 by decide)
  rw [bits_15_12_mul, bits_15_12_mul, kept]

/-- The rows of opcode nibble 0 fix the whole word, and there are three. -/
theorem table_opcode_zero : ∀ r ∈ decodeTable, bits r.pattern 15 12 = 0x0 →
    r.mask = 0xFFFF ∧ (r.pattern = 0x0000 ∨ r.pattern = 0x00E0 ∨ r.pattern = 0x00EE) := by decide

/-- A row whose mask is 0xFFFF selects its pattern alone. -/
theorem eq_pattern_of_selects {r : Row} (hm : r.mask = 0xFFFF) {w : Word} (h : r.selects w = true) :
    w = r.pattern := by
  rw [selects_iff, hm, mask_FFFF] at h
  exact BitVec.eq_of_toNat_eq h

/-- The words of opcode nibble 0 that some row selects. -/
theorem word_of_selects_opcode_zero {r : Row} (hr : r ∈ decodeTable) {w : Word} (h : r.selects w = true)
    (h0 : bits w 15 12 = 0x0) : w = 0x0000 ∨ w = 0x00E0 ∨ w = 0x00EE := by
  rw [bits_15_12_of_selects hr h] at h0
  obtain ⟨hmask, hpattern⟩ := table_opcode_zero r hr h0
  rwa [eq_pattern_of_selects hmask h]

/-- The words 0nnn that are no operation (R75). -/
theorem decode_opcode_zero_invalid {w : Word} (h0 : bits w 15 12 = 0x0) (hnop : w ≠ 0x0000)
    (hclear : w ≠ 0x00E0) (hret : w ≠ 0x00EE) : decode w = .error (.invalid w) := by
  apply decode_of_none
  intro r hr
  by_contra hs
  rcases word_of_selects_opcode_zero hr (by simpa using hs) h0 with h | h | h
  · exact hnop h
  · exact hclear h
  · exact hret h

/-! ### Nop -/

/-- The first row of R70 is the only one that builds Nop. -/
theorem build_ne_nop (w : Word) : ∀ r ∈ decodeTable.tail, r.build w ≠ .nop := by
  simp [decodeTable, rowsControl, rowsEight, rowsMiddle, rowsF]

theorem decode_eq_nop_iff (w : Word) : decode w = .ok .nop ↔ w = 0x0000 := by
  constructor
  · intro hd
    rcases decode_cases w with ⟨r, hr, hs, hb⟩ | ⟨_, he⟩
    · have hnop : r.build w = .nop := Except.ok.inj (hb.symm.trans hd)
      rcases List.mem_cons.1 (show r ∈ decodeTable[0] :: decodeTable.tail from hr) with rfl | htail
      · exact eq_pattern_of_selects rfl hs
      · exact absurd hnop (build_ne_nop w r htail)
    · rw [he] at hd
      cases hd
  · rintro rfl
    decide

namespace Machine

theorem exec_nop (s : State) : exec .nop s = .next s := rfl

/-- Settles O18: Nop's row fixes the whole word, and so do the two other rows of the 0nnn group. -/
theorem nopHasNoEffect : Obligations.NopHasNoEffect :=
  ⟨decode_eq_nop_iff, fun _ => decode_opcode_zero_invalid, exec_nop⟩

end Machine

end Sys2Proof
end

section
/-! The host's transactions (60_exceptions.md): TICK_TIMERS and a whole countdown (R184–R186), and the pixels
that FB_READ answers (R189). -/

namespace Sys2Proof.Machine

/-! ### TICK_TIMERS -/

theorem keepsParts_writeDT (s : State) (v : Byte) : keepsParts [.delay] s (s.writeDT v) := by
  intro p hp
  cases p with
  | delay => simp at hp
  | _ => simp [Part.same]

theorem keepsParts_writeST (s : State) (v : Byte) : keepsParts [.sound] s (s.writeST v) := by
  intro p hp
  cases p with
  | sound => simp at hp
  | _ => simp [Part.same]

@[simp] theorem tickTimers_DT_toNat (s : State) : (tickTimers s).DT.toNat = s.DT.toNat - 1 :=
  countDown_toNat s.DT

@[simp] theorem tickTimers_ST_toNat (s : State) : (tickTimers s).ST.toNat = s.ST.toNat - 1 :=
  countDown_toNat s.ST

@[simp] theorem tickTimers_reply (s : State) :
    (tickTimers s).reply = .playTone (decide (s.ST.toNat = 1)) := by
  have h : s.ST = 1 ↔ s.ST.toNat = 1 := BitVec.toNat_inj.symm
  simp [tickTimers, ← h, beq_eq_decide]

theorem tickTimers_keepsParts (s : State) : keepsParts [.delay, .sound] s (tickTimers s) :=
  keepsParts_trans (keepsParts_trans (keepsParts_writeDT s _) (keepsParts_writeST _ _))
    (keepsParts_writeReply _ _)

/-- Settles O50: a timer at 0 is where the natural number `t - 1` is `t`. -/
theorem tickTimersCountsDownAndTones : Obligations.TickTimersCountsDownAndTones := by
  intro s
  refine ⟨tickTimers s, rfl, ?_, ?_, tickTimers_reply s, tickTimers_keepsParts s⟩
  · rw [tickTimers_DT_toNat]
    split <;> omega
  · rw [tickTimers_ST_toNat]
    split <;> omega

/-! ### A whole countdown -/

theorem iterate_tickTimers_ST_toNat (s : State) (k : Nat) :
    (tickTimers^[k] s).ST.toNat = s.ST.toNat - k := by
  induction k with
  | zero => rfl
  | succ k ih => rw [Function.iterate_succ_apply', tickTimers_ST_toNat, ih, Nat.sub_sub]

/-- Settles O51: after `k` calls ST is `ST - k`, so the next call tones exactly when that is 1. -/
theorem oneCountdownTonesOnceAtItsEnd : Obligations.OneCountdownTonesOnceAtItsEnd := by
  intro s k
  refine ⟨?_, iterate_tickTimers_ST_toNat s (k + 1)⟩
  have last : s.ST.toNat - k = 1 ↔ k + 1 = s.ST.toNat := by omega
  rw [Function.iterate_succ_apply', tickTimers_reply, iterate_tickTimers_ST_toNat, decide_eq_decide.2 last]

/-! ### FB_READ -/

/-- The pixels in index order are the rows one after the other. -/
theorem pixelsInOrder_eq_flatten (fb : Framebuffer) : pixelsInOrder fb = fb.flatten.toList := by
  simp [pixelsInOrder, Vector.flatten, Vector.toList, List.flatMap_def, Function.comp_def]

/-- Index `64*y + x` is pixel `x` of row `y` (R37). -/
theorem pixelsInOrder_getElem? (fb : Framebuffer) (c : Fin 64) (r : Fin 32) :
    (pixelsInOrder fb)[64 * r.val + c.val]? = some fb[r][c] := by
  have row : (64 * r.val + c.val) / 64 = r.val := by omega
  have column : (64 * r.val + c.val) % 64 = c.val := by omega
  have inside : 64 * r.val + c.val < 32 * 64 := by omega
  rw [pixelsInOrder_eq_flatten, Vector.getElem?_toList, Vector.getElem?_eq_getElem inside,
    Vector.getElem_flatten]
  simp [row, column]

/-- Settles O54: the reply is the only write of `fbRead`. -/
theorem fbReadReturnsThePixelsInOrder : Obligations.FbReadReturnsThePixelsInOrder := fun s =>
  ⟨fbRead s, pixelsInOrder s.fb, rfl, rfl, pixelsInOrder_length s.fb, pixelsInOrder_getElem? s.fb,
    keepsParts_writeReply s _⟩

end Sys2Proof.Machine
end

section
/-! The decoder and the encoder (30_encoding.md R65–R80): each is the inverse of the other, the rows of the
decode table exclude each other, and the words that no row selects. -/

namespace Sys2Proof

/-! ### Decode of encode -/

/-- Every instruction has its row in the decode table (R70). -/
theorem ownRow (i : Instr) : Laws.OwnRow.Statement i := by
  cases i with
  | nop => exact Laws.OwnRow.nop
  | clearScreen => exact Laws.OwnRow.clearScreen
  | ret => exact Laws.OwnRow.ret
  | jump nnn => exact Laws.OwnRow.jump nnn
  | call nnn => exact Laws.OwnRow.call nnn
  | skipIfValEQ x kk => exact Laws.OwnRow.skipIfValEQ x kk
  | skipIfValNE x kk => exact Laws.OwnRow.skipIfValNE x kk
  | skipIfRegEQ x y => exact Laws.OwnRow.skipIfRegEQ x y
  | setToVal x kk => exact Laws.OwnRow.setToVal x kk
  | addVal x kk => exact Laws.OwnRow.addVal x kk
  | setToReg x y => exact Laws.OwnRow.setToReg x y
  | bitwiseOr x y => exact Laws.OwnRow.bitwiseOr x y
  | bitwiseAnd x y => exact Laws.OwnRow.bitwiseAnd x y
  | bitwiseXor x y => exact Laws.OwnRow.bitwiseXor x y
  | addReg x y => exact Laws.OwnRow.addReg x y
  | subReg x y => exact Laws.OwnRow.subReg x y
  | shiftRight x y => exact Laws.OwnRow.shiftRight x y
  | subFromReg x y => exact Laws.OwnRow.subFromReg x y
  | shiftLeft x y => exact Laws.OwnRow.shiftLeft x y
  | skipIfRegNE x y => exact Laws.OwnRow.skipIfRegNE x y
  | setIndex nnn => exact Laws.OwnRow.setIndex nnn
  | jumpV0Distance nnn => exact Laws.OwnRow.jumpV0Distance nnn
  | rand x kk => exact Laws.OwnRow.rand x kk
  | drawSprite x y n => exact Laws.OwnRow.drawSprite x y n
  | skipIfKeyPressed x => exact Laws.OwnRow.skipIfKeyPressed x
  | skipIfKeyNotPressed x => exact Laws.OwnRow.skipIfKeyNotPressed x
  | getDelayTimer x => exact Laws.OwnRow.getDelayTimer x
  | waitKey x => exact Laws.OwnRow.waitKey x
  | setDelayTimer x => exact Laws.OwnRow.setDelayTimer x
  | setSoundTimer x => exact Laws.OwnRow.setSoundTimer x
  | incrementI x => exact Laws.OwnRow.incrementI x
  | loadFontChar x => exact Laws.OwnRow.loadFontChar x
  | bcd x => exact Laws.OwnRow.bcd x
  | loadIntoRam x => exact Laws.OwnRow.loadIntoRam x
  | loadFromRam x => exact Laws.OwnRow.loadFromRam x

theorem decode_encode {i : Instr} (h : i.wf = true) : decode (encode i) = .ok i := by
  obtain ⟨r, hr, selects, builds⟩ := ownRow i h
  rw [decode_of_selects hr selects, builds]

/-- Settles O1: the row of an instruction selects its word and builds it back (`ownRow`). -/
theorem decodeOfEncodeIsTheInstruction : Obligations.DecodeOfEncodeIsTheInstruction :=
  fun _ => decode_encode

/-! ### What selects a word, in the word's own bits (R66) -/

section
variable {r : Row} {w : Word}

theorem selects_iff_of_mask_FFFF (hm : r.mask = 0xFFFF) : r.selects w = true ↔ w = r.pattern := by
  rw [selects_iff, hm, mask_FFFF, BitVec.toNat_inj]

theorem selects_iff_of_mask_F000 (hm : r.mask = 0xF000) (hp : r.pattern.toNat % 4096 = 0) :
    r.selects w = true ↔ bits w 15 12 = r.pattern.toNat / 4096 := by
  have := word_lt w
  rw [selects_iff, hm, mask_F000, bits]
  omega

theorem selects_iff_of_mask_F00F (hm : r.mask = 0xF00F) (hp : r.pattern.toNat / 16 % 256 = 0) :
    r.selects w = true ↔ bits w 15 12 = r.pattern.toNat / 4096 ∧ bits w 3 0 = r.pattern.toNat % 16 := by
  have := word_lt w
  rw [selects_iff, hm, mask_F00F, bits, bits]
  omega

theorem selects_iff_of_mask_F0FF (hm : r.mask = 0xF0FF) (hp : r.pattern.toNat / 256 % 16 = 0) :
    r.selects w = true ↔ bits w 15 12 = r.pattern.toNat / 4096 ∧ bits w 7 0 = r.pattern.toNat % 256 := by
  have := word_lt w
  rw [selects_iff, hm, mask_F0FF, bits, bits]
  omega

end

/-! ### Encode of decode -/

section
variable {op low : Nat} {w : Word}

theorem wordNNN_fields (h : bits w 15 12 = op) : wordNNN op (fieldNNN w) = w := by
  have := word_lt w
  apply BitVec.eq_of_toNat_eq
  rw [bits] at h
  rw [wordNNN_toNat op _ (by omega), fieldNNN_eq]
  omega

theorem wordXKK_fields (h : bits w 15 12 = op) : wordXKK op (fieldX w) (fieldKK w) = w := by
  have := word_lt w
  apply BitVec.eq_of_toNat_eq
  rw [bits] at h
  rw [wordXKK_toNat op _ _ (by omega), fieldX_val, fieldKK_eq]
  omega

theorem wordXYN_fields (h : bits w 15 12 = op) (hl : bits w 3 0 = low) :
    wordXYN op (fieldX w) (fieldY w) low = w := by
  have := word_lt w
  apply BitVec.eq_of_toNat_eq
  rw [bits] at h hl
  rw [wordXYN_toNat op _ _ low (by omega) (by omega), fieldX_val, fieldY_val]
  omega

theorem wordXOO_fields (h : bits w 15 12 = op) (hl : bits w 7 0 = low) :
    wordXOO op (fieldX w) low = w := by
  have := word_lt w
  apply BitVec.eq_of_toNat_eq
  rw [bits] at h hl
  rw [wordXOO_toNat op _ low (by omega) (by omega), fieldX_val]
  omega

end

theorem rowCountOk_fieldN (w : Word) : rowCountOk (fieldN w) = true := by
  rw [rowCountOk, decide_eq_true_eq, fieldN_eq]
  omega

/-- What a row builds from a word it selects is well-formed. -/
theorem build_wf (w : Word) : ∀ r ∈ decodeTable, (r.build w).wf = true := by
  simp [decodeTable, rowsControl, rowsEight, rowsMiddle, rowsF, Instr.wf, rowCountOk_fieldN]

/-- What a row builds from a word it selects has that word, by the format of the row (R67). -/
theorem encode_build (w : Word) : ∀ r ∈ decodeTable, r.selects w = true → encode (r.build w) = w := by
  simp +contextual [decodeTable, rowsControl, rowsEight, rowsMiddle, rowsF, encode,
    selects_iff_of_mask_FFFF, selects_iff_of_mask_F000, selects_iff_of_mask_F00F,
    selects_iff_of_mask_F0FF, wordNNN_fields, wordXKK_fields, wordXYN_fields, wordXOO_fields, fieldN]

/-- Settles O2: a decoded word comes from the row that selects it. -/
theorem encodeOfDecodeIsTheWord : Obligations.EncodeOfDecodeIsTheWord := by
  intro w i hd
  rcases decode_cases w with ⟨r, hr, selects, hb⟩ | ⟨_, he⟩
  · obtain rfl : r.build w = i := Except.ok.inj (hb.symm.trans hd)
    exact ⟨build_wf w r hr, encode_build w r hr selects⟩
  · rw [he] at hd
    cases hd

/-! ### The rows exclude each other -/

/-- An earlier and a later row of the table never select the same word (R73). -/
theorem not_both_select_of_lt {a b : Nat} (hb : b < decodeTable.length) (hab : a < b) {w : Word}
    (ha : decodeTable[a].selects w = true) : ¬ decodeTable[b].selects w = true := fun hs =>
  not_both_select _ _ (List.pairwise_iff_getElem.1 table_disjoint a b (by omega) hb hab) w ha hs

/-- Settles O3: of two different indices one is the smaller. -/
theorem decodeTableRowsAreDisjoint : Obligations.DecodeTableRowsAreDisjoint := by
  refine ⟨rfl, fun a b ha hb w hsa hsb => ?_⟩
  rcases Nat.lt_trichotomy a b with hab | rfl | hab
  · exact absurd hsb (not_both_select_of_lt hb hab hsa)
  · rfl
  · exact absurd hsa (not_both_select_of_lt ha hab hsb)

/-! ### The invalid words -/

theorem decode_eq_error_iff (w : Word) :
    decode w = .error (.invalid w) ↔ ∀ r ∈ decodeTable, ¬ r.selects w = true := by
  constructor
  · intro he r hr hs
    rw [decode_of_selects hr hs] at he
    cases he
  · exact fun h => decode_of_none fun r hr => by simpa using h r hr

/-- A rejection names the word (R75). -/
theorem reject_eq_invalid {w : Word} {e : Reject} (h : decode w = .error e) : e = .invalid w := by
  rcases decode_cases w with ⟨r, _, _, hb⟩ | ⟨_, he⟩
  · rw [hb] at h
    cases h
  · exact Except.error.inj (h.symm.trans he)

theorem bits_15_12_lt (w : Word) : bits w 15 12 < 16 := Nat.mod_lt _ (by decide)

theorem bits_3_0_lt (w : Word) : bits w 3 0 < 16 := Nat.mod_lt _ (by decide)

/-- The three valid words of the 0nnn group have opcode nibble 0. -/
theorem ne_zero_group_words_of_opcode {w : Word} (h : bits w 15 12 ≠ 0x0) : w ≠ 0x0000 ∧ w ≠ 0x00E0 ∧ w ≠ 0x00EE := by
  refine ⟨?_, ?_, ?_⟩ <;> rintro rfl <;> exact h rfl

/-- The words that no row selects, by their opcode nibble: a nibble with a row of mask 0xF000 has none, and
the others lack the codes that R75 lists. -/
theorem selected_by_no_row_iff (w : Word) :
    (∀ r ∈ decodeTable, ¬ r.selects w = true) ↔
      (bits w 15 12 = 0x0 ∧ w ≠ 0x0000 ∧ w ≠ 0x00E0 ∧ w ≠ 0x00EE) ∨
      (bits w 15 12 = 0x5 ∧ bits w 3 0 ≠ 0) ∨
      (bits w 15 12 = 0x8 ∧ bits w 3 0 ∈ [0x8, 0x9, 0xA, 0xB, 0xC, 0xD, 0xF]) ∨
      (bits w 15 12 = 0x9 ∧ bits w 3 0 ≠ 0) ∨
      (bits w 15 12 = 0xE ∧ bits w 7 0 ∉ [0x9E, 0xA1]) ∨
      (bits w 15 12 = 0xF ∧ bits w 7 0 ∉ [0x07, 0x0A, 0x15, 0x18, 0x1E, 0x29, 0x33, 0x55, 0x65]) := by
  have hcode := bits_15_12_lt w
  have hminor := bits_3_0_lt w
  have hzero := ne_zero_group_words_of_opcode (w := w)
  simp only [decodeTable, rowsControl, rowsEight, rowsMiddle, rowsF, List.cons_append, List.nil_append,
    List.mem_cons, List.not_mem_nil, or_false, forall_eq_or_imp, forall_eq, not_and, not_or,
    selects_iff_of_mask_FFFF, selects_iff_of_mask_F000, selects_iff_of_mask_F00F, selects_iff_of_mask_F0FF,
    ne_eq, BitVec.ofNat_eq_ofNat, BitVec.toNat_ofNat, Nat.reducePow, Nat.reduceMod, Nat.reduceDiv,
    Nat.mod_self, Nat.div_self, Nat.ofNat_pos] at hzero ⊢
  generalize bits w 15 12 = opcode at *
  generalize bits w 3 0 = minor at *
  generalize bits w 7 0 = low at *
  interval_cases opcode <;> simp [hzero]
  -- Only the eight-group is left: the minor nibbles without a row are the seven listed ones.
  omega

/-- Settles O4: the decoder answers an error exactly when no row selects, and then names the word. -/
theorem decodeRejectsExactlyTheListedWords : Obligations.DecodeRejectsExactlyTheListedWords := fun w =>
  ⟨(decode_eq_error_iff w).trans (selected_by_no_row_iff w), fun _ => reject_eq_invalid⟩

/-! ### Words written out -/

/-- Settles O5: each word is looked up in the table. -/
theorem decodeOfWrittenOutWords : Obligations.DecodeOfWrittenOutWords := by
  unfold Obligations.DecodeOfWrittenOutWords
  decide

end Sys2Proof
end

section
/-! How a run ends, and its frame (10_state.md R12): the parts of the block each update keeps, what a run of
stores, loads or sprite rows keeps, and which parts each of the 35 operations may write. -/

namespace Sys2Proof.Machine

/-! ### The parts an update keeps -/

theorem keepsParts_refl (parts : List Part) (s : State) : keepsParts parts s s := by
  intro p _
  cases p <;> simp [Part.same]

/-- A part that is listed but the same need not be listed. -/
theorem keepsParts_of_same {ps qs : List Part} {s t : State} (h : keepsParts ps s t)
    (hsame : ∀ p ∈ ps, p ∉ qs → p.same s t) : keepsParts qs s t := by
  intro p hq
  by_cases hp : p ∈ ps
  · exact hsame p hp hq
  · exact h p hp

theorem keepsParts_mono {ps qs : List Part} {s t : State} (h : keepsParts ps s t) (hsub : ps ⊆ qs) :
    keepsParts qs s t :=
  keepsParts_of_same h fun _ hp hq => absurd (hsub hp) hq

/-- A listed part of `s` that changed is one of those the run may write. -/
theorem mem_of_keepsParts {ps : List Part} {s t : State} (h : keepsParts ps s t) {p : Part}
    (hp : ¬ p.same s t) : p ∈ ps :=
  by_contra fun hnot => hp (h p hnot)

theorem keepsParts_writeV (s : State) (r : Reg) (v : Byte) : keepsParts [.regs] s (s.writeV r v) := by
  intro p hp
  cases p with
  | regs => simp at hp
  | _ => simp [Part.same]

theorem keepsParts_writeI (s : State) (v : Word) : keepsParts [.index] s (s.writeI v) := by
  intro p hp
  cases p with
  | index => simp at hp
  | _ => simp [Part.same]

theorem keepsParts_writeStack (s : State) (j : Fin 16) (v : Word) :
    keepsParts [.stack] s (s.writeStack j v) := by
  intro p hp
  cases p with
  | stack => simp at hp
  | _ => simp [Part.same]

theorem keepsParts_writeSp (s : State) (n : Fin 17) : keepsParts [.stack] s (s.writeSp n) := by
  intro p hp
  cases p with
  | stack => simp at hp
  | _ => simp [Part.same]

theorem keepsParts_writeKey (s : State) (k : Fin 16) (b : Bool) : keepsParts [.keys] s (s.writeKey k b) := by
  intro p hp
  cases p with
  | keys => simp at hp
  | _ => simp [Part.same]

theorem keepsParts_writeFb (s : State) (fb : Framebuffer) : keepsParts [.screen] s (s.writeFb fb) := by
  intro p hp
  cases p with
  | screen => simp at hp
  | _ => simp [Part.same]

theorem keepsParts_writeMem (s : State) (m : List Host.Cell) : keepsParts [.memory] s (s.writeMem m) := by
  intro p hp
  cases p with
  | memory => simp at hp
  | _ => simp [Part.same]

/-! ### The same with the model's own fields -/

theorem sameExcept_refl (parts : List Part) (s : State) : sameExcept parts s s :=
  ⟨keepsParts_refl parts s, rfl, rfl, rfl, rfl⟩

theorem hostSame_trans {s t u : State} (hst : hostSame s t) (htu : hostSame t u) : hostSame s u := by
  obtain ⟨calls, rand, draws, reply⟩ := hst
  obtain ⟨calls', rand', draws', reply'⟩ := htu
  exact ⟨calls'.trans calls, rand'.trans rand, draws'.trans draws, reply'.trans reply⟩

/-- After a run that keeps all but `ps`, one more change inside `ps`. -/
theorem sameExcept.andThen {ps qs : List Part} {s t u : State} (hst : sameExcept ps s t)
    (htu : sameExcept qs t u) (hsub : qs ⊆ ps) : sameExcept ps s u := by
  obtain ⟨parts, host⟩ := hst
  obtain ⟨parts', host'⟩ := htu
  refine ⟨keepsParts_mono (keepsParts_trans parts parts') ?_, hostSame_trans host host'⟩
  exact List.append_subset.2 ⟨List.Subset.refl ps, hsub⟩

theorem sameExcept_of_same {ps qs : List Part} {s t : State} (h : sameExcept ps s t)
    (hsame : ∀ p ∈ ps, p ∉ qs → p.same s t) : sameExcept qs s t :=
  ⟨keepsParts_of_same h.1 hsame, h.2⟩

theorem sameExcept_mono {ps qs : List Part} {s t : State} (h : sameExcept ps s t) (hsub : ps ⊆ qs) :
    sameExcept qs s t :=
  ⟨keepsParts_mono h.1 hsub, h.2⟩

section
variable (s : State)

theorem sameExcept_writePc (v : Word) : sameExcept [.pc] s (s.writePc v) :=
  ⟨keepsParts_writePc s v, rfl, rfl, rfl, rfl⟩

theorem sameExcept_writeV (r : Reg) (v : Byte) : sameExcept [.regs] s (s.writeV r v) :=
  ⟨keepsParts_writeV s r v, rfl, rfl, rfl, rfl⟩

theorem sameExcept_writeVF (v : Byte) : sameExcept [.regs] s (s.writeVF v) := sameExcept_writeV s regF v

theorem sameExcept_writeI (v : Word) : sameExcept [.index] s (s.writeI v) :=
  ⟨keepsParts_writeI s v, rfl, rfl, rfl, rfl⟩

theorem sameExcept_writeStack (j : Fin 16) (v : Word) : sameExcept [.stack] s (s.writeStack j v) :=
  ⟨keepsParts_writeStack s j v, rfl, rfl, rfl, rfl⟩

theorem sameExcept_writeSp (n : Fin 17) : sameExcept [.stack] s (s.writeSp n) :=
  ⟨keepsParts_writeSp s n, rfl, rfl, rfl, rfl⟩

theorem sameExcept_writeDT (v : Byte) : sameExcept [.delay] s (s.writeDT v) :=
  ⟨keepsParts_writeDT s v, rfl, rfl, rfl, rfl⟩

theorem sameExcept_writeST (v : Byte) : sameExcept [.sound] s (s.writeST v) :=
  ⟨keepsParts_writeST s v, rfl, rfl, rfl, rfl⟩

theorem sameExcept_writeFb (fb : Framebuffer) : sameExcept [.screen] s (s.writeFb fb) :=
  ⟨keepsParts_writeFb s fb, rfl, rfl, rfl, rfl⟩

theorem sameExcept_writeMem (m : List Host.Cell) : sameExcept [.memory] s (s.writeMem m) :=
  ⟨keepsParts_writeMem s m, rfl, rfl, rfl, rfl⟩

theorem sameExcept_writeFault (f : Option LatchedFault) : sameExcept [.latch] s (s.writeFault f) :=
  ⟨keepsParts_writeFault s f, rfl, rfl, rfl, rfl⟩

theorem sameExcept_skipIf (taken : Bool) : sameExcept [.pc] s (skipIf taken s) := by
  rw [skipIf_eq]
  exact sameExcept_writePc s _

end

/-! ### How a run ends -/

/-- The run answers a next state, and that state satisfies `P`. -/
def endsIn (r : Result) (P : State → Prop) : Prop := ∃ t, r = .next t ∧ P t

section EndsIn

variable {P Q : State → Prop} {r : Result} {s t : State}

theorem endsIn_next (h : P t) : endsIn (.next t) P := ⟨t, rfl, h⟩

theorem endsIn.of_eq (h : endsIn r P) (ht : r = .next t) : P t := by
  obtain ⟨u, rfl, hu⟩ := h
  cases ht
  exact hu

theorem endsIn.mono (h : endsIn r P) (himp : ∀ t, P t → Q t) : endsIn r Q := by
  obtain ⟨t, ht, hP⟩ := h
  exact ⟨t, ht, himp t hP⟩

theorem endsIn_orRaise {α : Type} {p : Except LatchedFault α} {k : α → Result}
    (hok : ∀ v, p = .ok v → endsIn (k v) P) (herror : ∀ f, p = .error f → P (s.writeFault (some f))) :
    endsIn (orRaise p s k) P := by
  cases p with
  | ok v => exact hok v rfl
  | error f => exact endsIn_next (herror f rfl)

/-- The first address of a run from `base` on that is out of range stays the same while the run is inside
memory. -/
theorem max_succ_memSize {base : Nat} (h : base < 4096) : max (base + 1) 4096 = max base 4096 := by
  omega

/-- What each store and the raise keep, a run of stores keeps (R54, R96). -/
theorem storeBytes_endsIn (base : Nat) (vs : List Byte)
    (hstore : ∀ s a v, a < 4096 → P s → P (s.writeMem (Memory.write s.mem a v)))
    (hraise : ∀ s, P s → P (s.writeFault (some (.addressOutOfRange (max base 4096))))) (h : P s) :
    endsIn (storeBytes base vs s) P := by
  induction vs generalizing base s with
  | nil => exact endsIn_next h
  | cons v vs ih =>
    rw [storeBytes]
    by_cases hb : base < 4096
    · rw [memWrite_ok hb, orRaise_ok]
      exact ih (base + 1) (by rwa [max_succ_memSize hb]) (hstore s base v hb h)
    · rw [memWrite_error (by omega), orRaise_error]
      exact endsIn_next (by simpa [show max base 4096 = base by omega] using hraise s h)

/-- What each load and the raise keep, a run of loads keeps (R54, R96). -/
theorem loadRegs_endsIn (base : Nat) (rs : List Reg)
    (hload : ∀ s r v, r ∈ rs → P s → P (s.writeV r v))
    (hraise : ∀ s, P s → P (s.writeFault (some (.addressOutOfRange (max base 4096))))) (h : P s) :
    endsIn (loadRegs base rs s) P := by
  induction rs generalizing base s with
  | nil => exact endsIn_next h
  | cons r rs ih =>
    rw [loadRegs]
    by_cases hb : base < 4096
    · rw [memRead_ok hb, orRaise_ok]
      exact ih (base + 1) (fun s q v hq => hload s q v (List.mem_cons_of_mem r hq))
        (by rwa [max_succ_memSize hb]) (hload s r _ List.mem_cons_self h)
    · rw [memRead_error (by omega), orRaise_error]
      exact endsIn_next (by simpa [show max base 4096 = base by omega] using hraise s h)

/-- What each sprite row and the raise keep, a draw keeps (R152, R96). -/
theorem drawRows_endsIn (px py base left row : Nat) (collided : Bool)
    (hrow : ∀ s fb v, P s → P ((s.writeFb fb).writeVF v))
    (hraise : ∀ s, P s → P (s.writeFault (some (.addressOutOfRange (max (base + row) 4096))))) (h : P s) :
    endsIn (drawRows px py base left row collided s) P := by
  induction left generalizing row collided s with
  | zero => exact endsIn_next h
  | succ left ih =>
    rw [drawRows]
    by_cases hb : base + row < 4096
    · rw [memRead_ok hb, orRaise_ok]
      exact ih (row + 1) _ (by rwa [← Nat.add_assoc, max_succ_memSize hb]) (hrow s _ _ h)
    · rw [memRead_error (by omega), orRaise_error]
      exact endsIn_next (by simpa [show max (base + row) 4096 = base + row by omega] using hraise s h)

end EndsIn

/-! ### The operations that branch -/

section
variable {s : State} {x : Reg}

theorem exec_ret_of_pos (h : 0 < s.sp.val) :
    exec .ret s = .next ((s.writeSp ⟨s.sp.val - 1, by have := s.sp.isLt; omega⟩).writePc
      (s.stackAt ⟨s.sp.val - 1, by have := s.sp.isLt; omega⟩)) := by
  rw [exec, execRet, pop_ok h, orRaise_ok]

theorem exec_ret_of_empty (h : ¬ 0 < s.sp.val) :
    exec .ret s = .next (s.writeFault (some .stackUnderflow)) := by
  rw [exec, execRet, pop_error h, orRaise_error]

theorem exec_call_of_room (nnn : BitVec 12) (h : s.sp.val < 16) :
    exec (.call nnn) s = .next (((s.writeStack ⟨s.sp.val, h⟩ s.pc).writeSp
      ⟨s.sp.val + 1, by omega⟩).writePc (zext16 nnn)) := by
  rw [exec, execCall, push_ok h, orRaise_ok]

theorem exec_call_of_full (nnn : BitVec 12) (h : ¬ s.sp.val < 16) :
    exec (.call nnn) s = .next (s.writeFault (some (.stackOverflow 16))) := by
  have full : s.sp.val = 16 := by omega
  rw [exec, execCall, push_error h, orRaise_error, full]

theorem exec_skipIfKeyPressed_of_key (h : (s.reg x).toNat < 16) :
    exec (.skipIfKeyPressed x) s = .next (skipIf (s.keyAt ⟨(s.reg x).toNat, h⟩) s) := by
  rw [exec, execSkipIfKeyPressed, keyRead_ok h, orRaise_ok]

theorem exec_skipIfKeyPressed_of_no_key (h : ¬ (s.reg x).toNat < 16) :
    exec (.skipIfKeyPressed x) s = .next (s.writeFault (some (.keyIndexOutOfRange (s.reg x)))) := by
  rw [exec, execSkipIfKeyPressed, keyRead_error h, orRaise_error]

theorem exec_skipIfKeyNotPressed_of_key (h : (s.reg x).toNat < 16) :
    exec (.skipIfKeyNotPressed x) s = .next (skipIf (!s.keyAt ⟨(s.reg x).toNat, h⟩) s) := by
  rw [exec, execSkipIfKeyNotPressed, keyRead_ok h, orRaise_ok]

theorem exec_skipIfKeyNotPressed_of_no_key (h : ¬ (s.reg x).toNat < 16) :
    exec (.skipIfKeyNotPressed x) s = .next (s.writeFault (some (.keyIndexOutOfRange (s.reg x)))) := by
  rw [exec, execSkipIfKeyNotPressed, keyRead_error h, orRaise_error]

theorem exec_waitKey_of_some {k : Fin 16} (h : firstPressed s = some k) :
    exec (.waitKey x) s = .next (s.writeV x (BitVec.ofNat 8 k.val)) := by
  rw [exec, execWaitKey, h]

theorem exec_waitKey_of_none (h : firstPressed s = none) : exec (.waitKey x) s = .next (rewind s) := by
  rw [exec, execWaitKey, h]

end

/-! ### The frame of every operation -/

/-- The parts of the block that an operation may write, the latch among them where it can raise. -/
def partsWritten : Instr → List Part
  | .nop => []
  | .clearScreen => [.screen]
  | .ret | .call _ => [.pc, .stack, .latch]
  | .jump _ | .jumpV0Distance _ => [.pc]
  | .skipIfValEQ _ _ | .skipIfValNE _ _ | .skipIfRegEQ _ _ | .skipIfRegNE _ _ => [.pc]
  | .setToVal _ _ | .addVal _ _ | .setToReg _ _ | .bitwiseOr _ _ | .bitwiseAnd _ _ | .bitwiseXor _ _ => [.regs]
  | .addReg _ _ | .subReg _ _ | .shiftRight _ _ | .subFromReg _ _ | .shiftLeft _ _ => [.regs]
  | .rand _ _ | .getDelayTimer _ => [.regs]
  | .setIndex _ | .incrementI _ | .loadFontChar _ => [.index]
  | .drawSprite _ _ _ => [.screen, .regs, .latch]
  | .skipIfKeyPressed _ | .skipIfKeyNotPressed _ => [.pc, .latch]
  | .waitKey _ => [.pc, .regs]
  | .setDelayTimer _ => [.delay]
  | .setSoundTimer _ => [.sound]
  | .bcd _ | .loadIntoRam _ => [.memory, .latch]
  | .loadFromRam _ => [.regs, .latch]

section
variable (s : State)

theorem sameExcept_writeV_writeV (q r : Reg) (a b : Byte) :
    sameExcept [.regs] s ((s.writeV q a).writeV r b) :=
  (sameExcept_writeV s q a).andThen (sameExcept_writeV _ r b) (List.Subset.refl _)

theorem storeBytes_sameExcept (base : Nat) (vs : List Byte) :
    endsIn (storeBytes base vs s) (sameExcept [.memory, .latch] s) :=
  storeBytes_endsIn base vs (fun t _ _ _ h => h.andThen (sameExcept_writeMem t _) (by simp))
    (fun t h => h.andThen (sameExcept_writeFault t _) (by simp)) (sameExcept_refl _ s)

theorem loadRegs_sameExcept (base : Nat) (rs : List Reg) :
    endsIn (loadRegs base rs s) (sameExcept [.regs, .latch] s) :=
  loadRegs_endsIn base rs (fun t _ _ _ h => h.andThen (sameExcept_writeV t _ _) (by simp))
    (fun t h => h.andThen (sameExcept_writeFault t _) (by simp)) (sameExcept_refl _ s)

theorem drawRows_sameExcept (px py base left row : Nat) (collided : Bool) :
    endsIn (drawRows px py base left row collided s) (sameExcept [.screen, .regs, .latch] s) :=
  drawRows_endsIn px py base left row collided
    (fun t _ _ h => (h.andThen (sameExcept_writeFb t _) (by simp)).andThen (sameExcept_writeVF _ _) (by simp))
    (fun t h => h.andThen (sameExcept_writeFault t _) (by simp)) (sameExcept_refl _ s)

theorem exec_ret_sameExcept : endsIn (exec .ret s) (sameExcept [.pc, .stack, .latch] s) := by
  by_cases h : 0 < s.sp.val
  · rw [exec_ret_of_pos h]
    exact endsIn_next (((sameExcept_refl _ s).andThen (sameExcept_writeSp s _) (by simp)).andThen
      (sameExcept_writePc _ _) (by simp))
  · rw [exec_ret_of_empty h]
    exact endsIn_next (sameExcept_mono (sameExcept_writeFault s _) (by simp))

theorem exec_call_sameExcept (nnn : BitVec 12) :
    endsIn (exec (.call nnn) s) (sameExcept [.pc, .stack, .latch] s) := by
  by_cases h : s.sp.val < 16
  · rw [exec_call_of_room nnn h]
    exact endsIn_next ((((sameExcept_refl _ s).andThen (sameExcept_writeStack s _ _) (by simp)).andThen
      (sameExcept_writeSp _ _) (by simp)).andThen (sameExcept_writePc _ _) (by simp))
  · rw [exec_call_of_full nnn h]
    exact endsIn_next (sameExcept_mono (sameExcept_writeFault s _) (by simp))

theorem exec_waitKey_sameExcept (x : Reg) : endsIn (exec (.waitKey x) s) (sameExcept [.pc, .regs] s) := by
  cases h : firstPressed s with
  | some k =>
    rw [exec_waitKey_of_some h]
    exact endsIn_next (sameExcept_mono (sameExcept_writeV s x _) (by simp))
  | none =>
    rw [exec_waitKey_of_none h]
    exact endsIn_next (sameExcept_mono (sameExcept_writePc s _) (by simp))

/-- Every operation answers a next state, and all but its own parts is as before (R12). -/
theorem exec_sameExcept (i : Instr) : endsIn (exec i s) (sameExcept (partsWritten i) s) := by
  cases i with
  | nop => exact endsIn_next (sameExcept_refl _ s)
  | clearScreen => exact endsIn_next (sameExcept_writeFb s _)
  | ret => exact exec_ret_sameExcept s
  | call nnn => exact exec_call_sameExcept s nnn
  | jump _ | jumpV0Distance _ => exact endsIn_next (sameExcept_writePc s _)
  | skipIfValEQ _ _ | skipIfValNE _ _ | skipIfRegEQ _ _ | skipIfRegNE _ _ =>
    exact endsIn_next (sameExcept_skipIf s _)
  | setToVal _ _ | addVal _ _ | setToReg _ _ | bitwiseOr _ _ | bitwiseAnd _ _ | bitwiseXor _ _ | rand _ _
    | getDelayTimer _ => exact endsIn_next (sameExcept_writeV s _ _)
  | addReg _ _ | subReg _ _ | shiftRight _ _ | subFromReg _ _ | shiftLeft _ _ =>
    exact endsIn_next (sameExcept_writeV_writeV s _ _ _ _)
  | setIndex _ | incrementI _ | loadFontChar _ => exact endsIn_next (sameExcept_writeI s _)
  | drawSprite _ _ _ => exact drawRows_sameExcept s _ _ _ _ _ _
  | skipIfKeyPressed _ | skipIfKeyNotPressed _ =>
    exact endsIn_orRaise (fun _ _ => endsIn_next (sameExcept_mono (sameExcept_skipIf s _) (by simp [partsWritten])))
      (fun _ _ => sameExcept_mono (sameExcept_writeFault s _) (by simp [partsWritten]))
  | waitKey x => exact exec_waitKey_sameExcept s x
  | setDelayTimer _ => exact endsIn_next (sameExcept_writeDT s _)
  | setSoundTimer _ => exact endsIn_next (sameExcept_writeST s _)
  | bcd _ | loadIntoRam _ => exact storeBytes_sameExcept s _ _
  | loadFromRam _ => exact loadRegs_sameExcept s _ _

end

end Sys2Proof.Machine
end

section
/-! The machine invariant (R45, R93, R170): RESET meets it, and every operation, cycle, transaction and step
keeps it. -/

namespace Sys2Proof.Machine

/-! ### `pc` as a number -/

/-- The sum `pc + 2` of an advance does not wrap below 0xFFFE (log 23). -/
theorem advance_pc_toNat {s : State} (h : s.pc.toNat ≤ 0xFFFD) : (advance s).pc.toNat = s.pc.toNat + 2 := by
  rw [advance_pc]
  bv_omega

/-- The difference `pc - 2` of WaitKey's rewind does not wrap from 2 on (log 23). -/
theorem rewind_pc_toNat {s : State} (h : 2 ≤ s.pc.toNat) : (rewind s).pc.toNat = s.pc.toNat - 2 := by
  rw [rewind_pc]
  bv_omega

theorem zext16_toNat (nnn : BitVec 12) : (zext16 nnn).toNat = nnn.toNat := by
  have := nnn.isLt
  rw [zext16, BitVec.toNat_ofNat]
  omega

theorem v0Target_toNat (s : State) (nnn : BitVec 12) :
    (v0Target s nnn).toNat = (s.reg 0).toNat + nnn.toNat := by
  have := nnn.isLt
  have := (s.reg 0).isLt
  rw [v0Target, BitVec.toNat_ofNat]
  omega

/-! ### Updates and the invariant -/

namespace State.Inv

variable {s t : State}

/-- The invariant reads memory, `pc`, stack and latch only. -/
theorem of_same (h : s.Inv) (mem : t.mem = s.mem) (pc : t.pc = s.pc) (sp : t.sp = s.sp)
    (stack : t.stack = s.stack) (fault : t.fault = s.fault) : t.Inv where
  memWf := mem ▸ h.memWf
  pcRange := pc ▸ h.pcRange
  stackRange j hj := by
    rw [stackAt, stack]
    exact h.stackRange j (sp ▸ hj)
  latchLegal := fault ▸ h.latchLegal

theorem writePc (h : s.Inv) {v : Word} (hv : v.toNat ≤ 0x10FE) : (s.writePc v).Inv :=
  ⟨h.memWf, hv, h.stackRange, h.latchLegal⟩

theorem writeV (h : s.Inv) (r : Reg) (v : Byte) : (s.writeV r v).Inv := h.of_same rfl rfl rfl rfl rfl

theorem writeI (h : s.Inv) (v : Word) : (s.writeI v).Inv := h.of_same rfl rfl rfl rfl rfl

theorem writeFb (h : s.Inv) (fb : Framebuffer) : (s.writeFb fb).Inv := h.of_same rfl rfl rfl rfl rfl

theorem writeReply (h : s.Inv) (r : Reply) : (s.writeReply r).Inv := h.of_same rfl rfl rfl rfl rfl

theorem writeMem (h : s.Inv) {m : List Host.Cell} (hm : Memory.wf m) : (s.writeMem m).Inv :=
  ⟨hm, h.pcRange, h.stackRange, h.latchLegal⟩

theorem writeFault (h : s.Inv) {f : LatchedFault} (hf : f.legal) : (s.writeFault (some f)).Inv :=
  ⟨h.memWf, h.pcRange, h.stackRange, by rintro _ ⟨⟩; exact hf⟩

theorem advance (h : s.Inv) (hpc : s.pc.toNat ≤ 0x10FC) : (advance s).Inv := by
  have pc := advance_pc_toNat (s := s) (by omega)
  exact h.writePc (pc.trans_le (by omega))

theorem skipIf (h : s.Inv) (hpc : s.pc.toNat ≤ 0x10FC) (taken : Bool) : (skipIf taken s).Inv := by
  cases taken with
  | false => exact h
  | true => exact h.advance hpc

theorem rewind (h : s.Inv) (hpc : 2 ≤ s.pc.toNat) : (rewind s).Inv := by
  have range := h.pcRange
  exact h.writePc ((rewind_pc_toNat hpc).trans_le (by omega))

end State.Inv

/-! ### Operations and the invariant -/

section
variable {s : State}

theorem storeBytes_inv (h : s.Inv) (base : Nat) (vs : List Byte) : endsIn (storeBytes base vs s) State.Inv :=
  storeBytes_endsIn base vs (fun t a v ha ht => ht.writeMem (Memory.write_wf t.mem ht.memWf a v ha))
    (fun t ht => ht.writeFault (by simp only [LatchedFault.legal]; omega)) h

theorem loadRegs_inv (h : s.Inv) (base : Nat) (rs : List Reg) : endsIn (loadRegs base rs s) State.Inv :=
  loadRegs_endsIn base rs (fun _ r v _ ht => ht.writeV r v)
    (fun _ ht => ht.writeFault (by simp only [LatchedFault.legal]; omega)) h

theorem drawRows_inv (h : s.Inv) (px py base left row : Nat) (collided : Bool) :
    endsIn (drawRows px py base left row collided s) State.Inv :=
  drawRows_endsIn px py base left row collided (fun _ fb v ht => (ht.writeFb fb).writeV regF v)
    (fun _ ht => ht.writeFault (by simp only [LatchedFault.legal]; omega)) h

/-- Return goes to a live entry, and fewer entries are live after it. -/
theorem exec_ret_inv (h : s.Inv) : endsIn (exec .ret s) State.Inv := by
  by_cases hsp : 0 < s.sp.val
  · rw [exec_ret_of_pos hsp]
    have popped : State.Inv (s.writeSp ⟨s.sp.val - 1, by have := s.sp.isLt; omega⟩) :=
      ⟨h.memWf, h.pcRange, fun j hj => h.stackRange j (by simp only [State.writeSp_sp] at hj; omega), h.latchLegal⟩
    have target := h.stackRange ⟨s.sp.val - 1, by have := s.sp.isLt; omega⟩ (by simp only; omega)
    exact endsIn_next (popped.writePc (by omega))
  · rw [exec_ret_of_empty hsp]
    exact endsIn_next (h.writeFault trivial)

/-- The entry Call makes live is the advanced `pc` (R93). -/
theorem exec_call_inv (h : s.Inv) (hpc : s.pc.toNat ≤ 0x1000) (nnn : BitVec 12) :
    endsIn (exec (.call nnn) s) State.Inv := by
  by_cases hsp : s.sp.val < 16
  · rw [exec_call_of_room nnn hsp]
    have pushed : State.Inv ((s.writeStack ⟨s.sp.val, hsp⟩ s.pc).writeSp ⟨s.sp.val + 1, by omega⟩) := by
      refine ⟨h.memWf, h.pcRange, fun j hj => ?_, h.latchLegal⟩
      rw [State.writeSp_stackAt, State.writeStack_stackAt]
      split
      case isTrue => exact hpc
      case isFalse hne =>
        have : j.val ≠ s.sp.val := fun e => hne (Fin.ext e)
        simp only [State.writeSp_sp] at hj
        exact h.stackRange j (by omega)
    have := nnn.isLt
    exact endsIn_next (pushed.writePc (by rw [zext16_toNat]; omega))
  · rw [exec_call_of_full nnn hsp]
    exact endsIn_next (h.writeFault rfl)

theorem exec_waitKey_inv (h : s.Inv) (hpc : 2 ≤ s.pc.toNat) (x : Reg) :
    endsIn (exec (.waitKey x) s) State.Inv := by
  cases hk : firstPressed s with
  | some k =>
    rw [exec_waitKey_of_some hk]
    exact endsIn_next (h.writeV x _)
  | none =>
    rw [exec_waitKey_of_none hk]
    exact endsIn_next (h.rewind hpc)

/-- A key read raises only for a number above 0xF (R177). -/
theorem keyRead_legal {k : Byte} {f : LatchedFault} (h : keyRead s k = .error f) : f.legal := by
  by_cases hk : k.toNat < 16
  · rw [keyRead_ok hk] at h
    cases h
  · rw [keyRead_error hk] at h
    cases h
    exact Nat.lt_of_not_le fun hle => hk (Nat.lt_succ_of_le hle)

/-- An operation keeps the invariant where a fetch can have left `pc` (R88, R93). -/
theorem exec_inv (h : s.Inv) (hlow : 2 ≤ s.pc.toNat) (hhigh : s.pc.toNat ≤ 0x1000) (i : Instr) :
    endsIn (exec i s) State.Inv := by
  have hskip : s.pc.toNat ≤ 0x10FC := by omega
  cases i with
  | nop => exact endsIn_next h
  | clearScreen => exact endsIn_next (h.writeFb _)
  | ret => exact exec_ret_inv h
  | call nnn => exact exec_call_inv h hhigh nnn
  | jump nnn =>
    have := nnn.isLt
    exact endsIn_next (h.writePc (by rw [zext16_toNat]; omega))
  | jumpV0Distance nnn =>
    have := nnn.isLt
    have := (s.reg 0).isLt
    exact endsIn_next (h.writePc (by rw [v0Target_toNat]; omega))
  | skipIfValEQ _ _ | skipIfValNE _ _ | skipIfRegEQ _ _ | skipIfRegNE _ _ =>
    exact endsIn_next (h.skipIf hskip _)
  | skipIfKeyPressed _ | skipIfKeyNotPressed _ =>
    exact endsIn_orRaise (fun _ _ => endsIn_next (h.skipIf hskip _))
      (fun _ hf => h.writeFault (keyRead_legal hf))
  | waitKey x => exact exec_waitKey_inv h hlow x
  | drawSprite _ _ _ => exact drawRows_inv h _ _ _ _ _ _
  | bcd _ | loadIntoRam _ => exact storeBytes_inv h _ _
  | loadFromRam _ => exact loadRegs_inv h _ _
  | setIndex _ | incrementI _ | loadFontChar _ => exact endsIn_next (h.writeI _)
  | _ => exact endsIn_next (h.of_same rfl rfl rfl rfl rfl)

end

/-! ### The cycle -/

section Cycle

variable {P : State → Prop} {s : State}

theorem fetch_eq_ok {w : Word} (h : fetch s = .ok w) : s.pc.toNat + 1 ≤ 4095 := by
  by_contra hpc
  rw [fetch_error (by omega)] at h
  cases h

/-- The three ways a cycle ends (R86, R89, R90). -/
theorem cycle_endsIn
    (hfetch : 4095 < s.pc.toNat + 1 → P (s.writeFault (some (.addressOutOfRange s.pc.toNat))))
    (hdecode : ∀ w e, fetch s = .ok w → decode w = .error e →
      P ((advance s).writeFault (some (.decodeError w))))
    (hexec : ∀ w i, fetch s = .ok w → decode w = .ok i → endsIn (exec i (advance s)) P) :
    endsIn (cycle s) P := by
  refine endsIn_orRaise (fun w hw => ?_) (fun f hf => ?_)
  · cases hd : decode w with
    | error e =>
      rw [decodeAndExecute_error hd]
      exact endsIn_next (hdecode w e hw hd)
    | ok i =>
      rw [decodeAndExecute_ok hd]
      exact hexec w i hw hd
  · by_cases hpc : s.pc.toNat + 1 ≤ 4095
    · rw [fetch_ok hpc] at hf
      cases hf
    · rw [fetch_error (by omega)] at hf
      cases hf
      exact hfetch (by omega)

/-- An admitted TICK is a cycle and the hand-over of its result (R91). -/
theorem tick_endsIn (hs : s.fault = none)
    (h : endsIn (cycle s) fun t => P (t.writeReply (tickReply t))) : endsIn (tick s) P := by
  obtain ⟨t, ht, hP⟩ := h
  rw [tick_running hs, ht, answerTick_next]
  exact endsIn_next hP

theorem cycle_inv (h : s.Inv) : endsIn (cycle s) State.Inv := by
  refine cycle_endsIn (fun hpc => ?_) (fun w e hw hd => ?_) (fun w i hw _ => ?_)
  · exact h.writeFault (by simp only [LatchedFault.legal]; omega)
  · have := fetch_eq_ok hw
    refine (h.advance (by omega)).writeFault ?_
    rw [reject_eq_invalid hd] at hd
    exact hd
  · have hpc := fetch_eq_ok hw
    have advanced := advance_pc_toNat (s := s) (by omega)
    exact exec_inv (h.advance (by omega)) (by omega) (by omega) i

end Cycle

/-! ### Transactions and steps -/

/-- Settles O56: every element is at its value of R41. -/
theorem resetMeetsTheInvariant : Obligations.ResetMeetsTheInvariant :=
  ⟨Memory.nil_wf, by decide, fun _ hj => absurd hj (Nat.not_lt_zero _), nofun⟩

section
variable {s t : State}

theorem tick_inv (h : s.Inv) (ht : tick s = .next t) : t.Inv := by
  cases hf : s.fault with
  | some f =>
    rw [tick_faulted hf] at ht
    cases ht
  | none => exact (tick_endsIn hf ((cycle_inv h).mono fun _ hu => hu.writeReply _)).of_eq ht

theorem loadRom_inv (h : s.Inv) (bytes : List Byte) : (loadRom bytes s).Inv := by
  unfold loadRom
  split
  case isTrue hlong =>
    simp only [Config.startAddr, Config.memSize] at hlong
    exact (h.writeFault (by simp only [LatchedFault.legal]; omega)).writeReply _
  case isFalse hfits =>
    simp only [Config.startAddr, Config.memSize, not_lt] at hfits
    exact (h.writeMem (Memory.writeAll_wf bytes s.mem h.memWf _ hfits)).writeReply _

theorem keyPress_inv (h : s.Inv) (index : Int) (pressed : Bool) : (keyPress index pressed s).Inv := by
  unfold keyPress
  split <;> exact h.of_same rfl rfl rfl rfl rfl

theorem hostCall_inv (h : s.Inv) (c : HostCall) (ht : hostCall c s = .next t) : t.Inv := by
  cases c with
  | tick rand => exact tick_inv (s := s.writeRand rand) (h.of_same rfl rfl rfl rfl rfl) ht
  | reset =>
    cases ht
    exact resetMeetsTheInvariant.of_same rfl rfl rfl rfl rfl
  | loadRom bytes =>
    cases ht
    exact loadRom_inv h bytes
  | key index pressed =>
    cases ht
    exact keyPress_inv h index pressed
  | tickTimers | fbRead =>
    cases ht
    exact h.of_same rfl rfl rfl rfl rfl

/-- Settles O57: a step is a TICK with a free byte, or the oldest pending call. -/
theorem stepKeepsTheInvariant : Obligations.StepKeepsTheInvariant := by
  intro s t h ht
  cases hc : s.calls with
  | nil =>
    rw [step_no_call hc] at ht
    exact tick_inv (s := drawRand s) (h.of_same rfl rfl rfl rfl rfl) ht
  | cons c rest =>
    rw [step_call hc] at ht
    exact hostCall_inv (s := s.writeCalls rest) (h.of_same rfl rfl rfl rfl rfl) c ht

end

end Sys2Proof.Machine
end

section
/-! The cycle and the host's transactions (40_execution_cycle.md, 60_exceptions.md, 70_reset_and_hazards.md):
what a step runs, how an admitted TICK ends, the order of the pending calls, KEY and LOAD_ROM. -/

namespace Sys2Proof.Machine

/-! ### A step and the instruction it runs -/

theorem cycle_of_decode {s : State} {w : Word} {i : Instr} (hw : fetch s = .ok w) (hd : decode w = .ok i) :
    cycle s = exec i (advance s) := by
  rw [cycle, hw, orRaise_ok, decodeAndExecute_ok hd]

theorem tick_of_decode {s : State} {w : Word} {i : Instr} (hs : s.fault = none) (hw : fetch s = .ok w)
    (hd : decode w = .ok i) : tick s = answerTick (exec i (advance s)) := by
  rw [tick_running hs, cycle_of_decode hw hd]

/-- A TICK whose operation raises nothing hands `ok` to the host (R91). -/
theorem tick_ok_of_exec {s t : State} {w : Word} {i : Instr} (hs : s.fault = none) (hw : fetch s = .ok w)
    (hd : decode w = .ok i) (he : exec i (advance s) = .next t) (ht : t.fault = none) :
    tick s = .next (t.writeReply .ok) := by
  rw [tick_of_decode hs hw hd, he, answerTick_next, tickReply, ht]

/-- Settles O6: the random byte and the call list are no part of the fetch. -/
theorem stepRunsTheDecodedInstruction : Obligations.StepRunsTheDecodedInstruction := by
  intro s i hs hpc hd
  refine ⟨fun hc => ?_, fun r rest hc => ?_, fun t => ?_⟩
  · rw [step_no_call hc]
    exact tick_of_decode (s := drawRand s) hs (fetch_ok hpc) hd
  · rw [step_call hc]
    exact tick_of_decode (s := (s.writeCalls rest).writeRand r) hs (fetch_ok hpc) hd
  · rw [answerTick_next]
    rfl

/-- Settles O11: two zero bytes are the word of Nop, so the advance is all that happens. -/
theorem zeroBytesRunAsNop : Obligations.ZeroBytesRunAsNop := by
  intro s hs hpc hhigh hlow
  have hw : fetch s = .ok (encode .nop) := by
    rw [fetch_ok hpc, hhigh, hlow]
    rfl
  refine ⟨_, tick_ok_of_exec hs hw (decode_encode rfl) (exec_nop _) hs, ?_, rfl, ?_⟩
  · exact advance_pc_toNat (by omega)
  · exact keepsParts_trans (keepsParts_writePc s _) (keepsParts_writeReply _ _)

theorem cycle_answers (s : State) : endsIn (cycle s) fun _ => True :=
  cycle_endsIn (fun _ => trivial) (fun _ _ _ _ => trivial)
    fun _ i _ _ => (exec_sameExcept _ i).mono fun _ _ => trivial

theorem tickReply_of_ok {t : State} (h : t.fault = none) : tickReply t = .ok := by
  rw [tickReply, h]

theorem tickReply_of_fault {t : State} {f : LatchedFault} (h : t.fault = some f) : tickReply t = .faulted f := by
  rw [tickReply, h]

/-- Settles O10: every cycle answers, and the reply is read off the latch. -/
theorem admittedTickAlwaysEnds : Obligations.AdmittedTickAlwaysEnds := fun s hs =>
  tick_endsIn hs ((cycle_answers s).mono fun _ _ => ⟨tickReply_of_ok, fun _ => tickReply_of_fault⟩)

/-! ### Transactions of a faulted machine -/

theorem keyPress_fault (index : Int) (pressed : Bool) (s : State) :
    (keyPress index pressed s).fault = s.fault := by
  unfold keyPress
  split <;> rfl

/-- Settles O9: TICK looks at the latch first; of the others only LOAD_ROM and RESET write it. -/
theorem faultedMachineTicksNoMoreUntilReset : Obligations.FaultedMachineTicksNoMoreUntilReset := by
  intro s f hf
  refine ⟨fun hc => ?tickStep, fun r => ?tickCall, fun k b => ?key, ?timers, ?fbRead, fun bytes => ?loadRom, ?reset⟩
  case tickStep =>
    rw [step_no_call hc]
    exact tick_faulted (s := drawRand s) hf
  case tickCall => exact tick_faulted (s := s.writeRand r) hf
  case key => exact ⟨_, rfl, (keyPress_fault k b s).trans hf⟩
  case timers => exact ⟨_, rfl, hf⟩
  case fbRead => exact ⟨_, rfl, hf⟩
  case loadRom => exact ⟨_, rfl, by rw [loadRom_fault, hf]⟩
  case reset => exact ⟨_, rfl, rfl⟩

/-! ### The pending calls -/

section
variable {s t : State}

theorem cycle_calls (s : State) : endsIn (cycle s) fun t => t.calls = s.calls :=
  cycle_endsIn (fun _ => rfl) (fun _ _ _ _ => rfl) fun _ i _ _ =>
    (exec_sameExcept (advance s) i).mono fun _ ⟨_, calls, _⟩ => calls

theorem tick_calls (h : tick s = .next t) : t.calls = s.calls := by
  cases hf : s.fault with
  | some f =>
    rw [tick_faulted hf] at h
    cases h
  | none => exact (tick_endsIn (P := fun t => t.calls = s.calls) hf (cycle_calls s)).of_eq h

theorem keyPress_calls (index : Int) (pressed : Bool) (s : State) :
    (keyPress index pressed s).calls = s.calls := by
  unfold keyPress
  split <;> rfl

theorem loadRom_calls (bytes : List Byte) (s : State) : (loadRom bytes s).calls = s.calls := by
  unfold loadRom
  split <;> rfl

/-- No transaction adds or withdraws a later call (log 22). -/
theorem hostCall_calls {c : HostCall} (h : hostCall c s = .next t) : t.calls = s.calls := by
  cases c with
  | tick rand => exact tick_calls (s := s.writeRand rand) h
  | loadRom bytes =>
    cases h
    exact loadRom_calls bytes s
  | key index pressed =>
    cases h
    exact keyPress_calls index pressed s
  | reset | tickTimers | fbRead =>
    cases h
    rfl

end

theorem step_no_call_eq_hostCall {s : State} (h : s.calls = []) :
    step s = hostCall (.tick (Config.randByte s.draws)) (s.writeDraws (s.draws + 1)) := step_no_call h

/-- Settles O58: what a step runs it runs on the machine that holds the later calls. -/
theorem pendingCallsRunInOrder : Obligations.PendingCallsRunInOrder := by
  refine ⟨fun s c rest hc => ⟨step_call hc, fun t ht => ?_⟩,
    fun s hc => ⟨step_no_call_eq_hostCall hc, fun t ht => ?_⟩⟩
  · rw [step_call hc] at ht
    exact hostCall_calls ht
  · rw [step_no_call_eq_hostCall hc] at ht
    exact (hostCall_calls ht).trans hc

/-! ### KEY -/

section
variable {index : Int} {pressed : Bool} {s : State}

theorem keyPress_of_key (h : 0 ≤ index ∧ index ≤ 0xF) :
    keyPress index pressed s = (s.writeReply .noResult).writeKey ⟨index.toNat, by omega⟩ pressed :=
  dif_pos h

theorem keyPress_of_no_key (h : ¬ (0 ≤ index ∧ index ≤ 0xF)) :
    keyPress index pressed s = s.writeReply .noResult :=
  dif_neg h

theorem keyPress_keyAt (k : Fin 16) :
    (keyPress index pressed s).keyAt k = if (k.val : Int) = index then pressed else s.keyAt k := by
  by_cases h : 0 ≤ index ∧ index ≤ 0xF
  · have same : k = ⟨index.toNat, by omega⟩ ↔ (k.val : Int) = index := by
      rw [Fin.ext_iff]
      dsimp only
      omega
    simp only [keyPress_of_key h, State.writeKey_keyAt, State.writeReply_keyAt, same]
  · rw [keyPress_of_no_key h, State.writeReply_keyAt, if_neg (by omega)]

theorem keyPress_reply : (keyPress index pressed s).reply = .noResult := by
  unfold keyPress
  split <;> rfl

theorem keyPress_keepsParts : keepsParts [.keys] s (keyPress index pressed s) := by
  by_cases h : 0 ≤ index ∧ index ≤ 0xF
  · rw [keyPress_of_key h]
    exact keepsParts_trans (keepsParts_writeReply s _) (keepsParts_writeKey _ _ _)
  · rw [keyPress_of_no_key h]
    exact keepsParts_mono (keepsParts_writeReply s _) (List.nil_subset _)

end

theorem loadRom_keys (bytes : List Byte) (s : State) : (loadRom bytes s).keys = s.keys := by
  unfold loadRom
  split <;> rfl

theorem State.keyAt_congr {s t : State} (h : t.keys = s.keys) (k : Fin 16) : t.keyAt k = s.keyAt k := by
  rw [State.keyAt, h, State.keyAt]

/-- Settles O52: KEY writes one key; a TICK writes none (R98), nor does any transaction but RESET. -/
theorem keyCallWritesItsKeyOnly : Obligations.KeyCallWritesItsKeyOnly := by
  refine ⟨fun index pressed s => ⟨_, rfl, keyPress_keyAt, keyPress_reply, keyPress_keepsParts⟩,
    fun c s t ht ⟨k, hk⟩ => ?_⟩
  cases c with
  | key index pressed => exact .inl ⟨index, pressed, rfl⟩
  | reset => exact .inr rfl
  | tick rand => exact absurd ((tick_storesOnly (s.writeRand rand) t ht).1 k) hk
  | loadRom bytes =>
    cases ht
    exact absurd (State.keyAt_congr (loadRom_keys bytes s) k) hk
  | tickTimers | fbRead =>
    cases ht
    exact absurd rfl hk

/-! ### LOAD_ROM -/

section
variable {bytes : List Byte} {s : State}

theorem loadRom_of_fits (h : bytes.length ≤ 3584) :
    loadRom bytes s = (s.writeMem (Memory.writeAll s.mem 0x200 bytes)).writeReply .ok :=
  if_neg (by simp only [Config.startAddr, Config.memSize]; omega)

theorem loadRom_of_too_large (h : 3584 < bytes.length) :
    loadRom bytes s = (s.writeFault (some (.romTooLarge bytes.length))).writeReply
      (.faulted (.romTooLarge bytes.length)) :=
  if_pos (by simp only [Config.startAddr, Config.memSize]; omega)

end

/-- Settles O53: the size check comes first, and 0x200 + 3584 is the end of memory. -/
theorem loadRomPlacesTheBytesOrFaults : Obligations.LoadRomPlacesTheBytesOrFaults := by
  refine fun bytes s hm => ⟨fun hfits => ⟨loadRom bytes s, rfl, ?_⟩, fun hlong => ⟨loadRom bytes s, rfl, ?_⟩⟩
  · rw [loadRom_of_fits hfits]
    exact ⟨Memory.read_writeAll_self bytes s.mem hm 0x200 (by omega),
      fun a => Memory.read_writeAll_other bytes s.mem 0x200 a, rfl,
      keepsParts_trans (keepsParts_writeMem s _) (keepsParts_writeReply _ _)⟩
  · rw [loadRom_of_too_large hlong]
    exact ⟨rfl, rfl, keepsParts_trans (keepsParts_writeFault s _) (keepsParts_writeReply _ _)⟩

end Sys2Proof.Machine
end

section
/-! Rules of the whole machine (10_state.md, 60_exceptions.md): who writes which register, the one fault of
each operation, and what no program can observe. -/

namespace Sys2Proof.Machine

/-! ### The writers of each part -/

section
variable {i : Instr}

theorem index_mem_partsWritten (h : .index ∈ partsWritten i) :
    (∃ nnn, i = .setIndex nnn) ∨ (∃ x, i = .incrementI x) ∨ ∃ x, i = .loadFontChar x := by
  cases i with
  | setIndex nnn => exact .inl ⟨nnn, rfl⟩
  | incrementI x => exact .inr (.inl ⟨x, rfl⟩)
  | loadFontChar x => exact .inr (.inr ⟨x, rfl⟩)
  | _ => simp [partsWritten] at h

theorem delay_mem_partsWritten (h : .delay ∈ partsWritten i) : ∃ x, i = .setDelayTimer x := by
  cases i with
  | setDelayTimer x => exact ⟨x, rfl⟩
  | _ => simp [partsWritten] at h

theorem sound_mem_partsWritten (h : .sound ∈ partsWritten i) : ∃ x, i = .setSoundTimer x := by
  cases i with
  | setSoundTimer x => exact ⟨x, rfl⟩
  | _ => simp [partsWritten] at h

theorem screen_mem_partsWritten (h : .screen ∈ partsWritten i) :
    i = .clearScreen ∨ ∃ x y n, i = .drawSprite x y n := by
  cases i with
  | clearScreen => exact .inl rfl
  | drawSprite x y n => exact .inr ⟨x, y, n, rfl⟩
  | _ => simp [partsWritten] at h

theorem stack_mem_partsWritten (h : .stack ∈ partsWritten i) : i = .ret ∨ ∃ nnn, i = .call nnn := by
  cases i with
  | ret => exact .inl rfl
  | call nnn => exact .inr ⟨nnn, rfl⟩
  | _ => simp [partsWritten] at h

end

/-- Settles O13: a part that changed is one the operation writes, and the timers' writers name the value. -/
theorem specialStateHasOnlyItsWriters : Obligations.SpecialStateHasOnlyItsWriters := by
  intro i s t ht
  obtain ⟨frame, _⟩ := (exec_sameExcept s i).of_eq ht
  refine ⟨fun hI => ?index, fun hDT => ?delay, fun hST => ?sound, fun ⟨c, r, hpixel⟩ => ?screen, fun hstack => ?stack⟩
  case index => exact index_mem_partsWritten (mem_of_keepsParts frame hI)
  case delay =>
    obtain ⟨x, rfl⟩ := delay_mem_partsWritten (mem_of_keepsParts frame hDT)
    cases ht
    exact ⟨x, rfl, rfl⟩
  case sound =>
    obtain ⟨x, rfl⟩ := sound_mem_partsWritten (mem_of_keepsParts frame hST)
    cases ht
    exact ⟨x, rfl, rfl⟩
  case screen => exact screen_mem_partsWritten (mem_of_keepsParts frame fun same => hpixel (same c r))
  case stack =>
    refine stack_mem_partsWritten (mem_of_keepsParts frame fun ⟨sp, entries⟩ => ?_)
    rcases hstack with hsp | ⟨j, hj⟩
    · exact hsp sp
    · exact hj (entries j)

/-! ### The registers an operation may write -/

/-- The registers that an operation may write: its named destination, VF as a flag, or the run of
LoadFromRam (R25, R145). -/
def writesReg : Instr → Reg → Prop
  | .setToVal x _, r | .addVal x _, r | .rand x _, r => r = x
  | .setToReg x _, r | .bitwiseOr x _, r | .bitwiseAnd x _, r | .bitwiseXor x _, r => r = x
  | .getDelayTimer x, r | .waitKey x, r => r = x
  | .addReg x _, r | .subReg x _, r | .shiftRight x _, r | .subFromReg x _, r | .shiftLeft x _, r =>
    r = x ∨ r = regF
  | .drawSprite _ _ _, r => r = regF
  | .loadFromRam x, r => r ≤ x
  | _, _ => False

/-- Every register outside `dest` reads the same in `s` and `t`. -/
def regsSameOutside (dest : Reg → Prop) (s t : State) : Prop := ∀ r, ¬ dest r → t.reg r = s.reg r

section
variable {dest : Reg → Prop} {s t u : State}

theorem regsSameOutside_of_sameExcept {ps : List Part} (h : sameExcept ps s t) (hr : .regs ∉ ps) :
    regsSameOutside dest s t := fun r _ => h.1 .regs hr r

theorem regsSameOutside.writeV (h : regsSameOutside dest s t) {x : Reg} (hx : dest x) (v : Byte) :
    regsSameOutside dest s (t.writeV x v) := fun r hr =>
  (State.writeV_reg_ne t x r v fun e => hr (e ▸ hx)).trans (h r hr)

theorem exec_regs_of_not_written (i : Instr) (hr : .regs ∉ partsWritten i) (s : State) :
    endsIn (exec i s) (regsSameOutside dest s) :=
  (exec_sameExcept s i).mono fun _ h => regsSameOutside_of_sameExcept h hr

end

/-- An operation writes no register but those it may (R24, R25). -/
theorem exec_regsSameOutside (i : Instr) (s : State) :
    endsIn (exec i s) (regsSameOutside (writesReg i) s) := by
  have same : regsSameOutside (writesReg i) s s := fun _ _ => rfl
  cases i with
  | setToVal _ _ | addVal _ _ | setToReg _ _ | bitwiseOr _ _ | bitwiseAnd _ _ | bitwiseXor _ _ | rand _ _
    | getDelayTimer _ => exact endsIn_next (same.writeV rfl _)
  | addReg _ _ | subReg _ _ | subFromReg _ _ => exact endsIn_next ((same.writeV (.inl rfl) _).writeV (.inr rfl) _)
  | shiftRight _ _ | shiftLeft _ _ => exact endsIn_next ((same.writeV (.inr rfl) _).writeV (.inl rfl) _)
  | waitKey x =>
    cases hk : firstPressed s with
    | some k =>
      rw [exec_waitKey_of_some hk]
      exact endsIn_next (same.writeV rfl _)
    | none =>
      rw [exec_waitKey_of_none hk]
      exact endsIn_next same
  | drawSprite _ _ _ =>
    exact drawRows_endsIn _ _ _ _ _ _ (fun t fb v h => h.writeV (t := t.writeFb fb) rfl v) (fun _ h => h) same
  | loadFromRam x =>
    exact loadRegs_endsIn _ _ (fun t r v hr h => h.writeV ((mem_regsUpTo x r).1 hr) v) (fun _ h => h) same
  | _ => exact exec_regs_of_not_written _ (by simp [partsWritten]) s

/-- Settles O14: a changed VF is a register the operation may write. -/
theorem vFChangesOnlyAsFlagOrDestination : Obligations.VFChangesOnlyAsFlagOrDestination := by
  intro i s t ht hVF
  have written : writesReg i regF := by
    by_contra hnot
    exact hVF ((exec_regsSameOutside i s).of_eq ht regF hnot)
  cases i with
  | addReg _ _ | subReg _ _ | subFromReg _ _ | shiftRight _ _ | shiftLeft _ _ | drawSprite _ _ _ => trivial
  | loadFromRam x => exact le_antisymm (Fin.le_last x) written
  | setToVal _ _ | addVal _ _ | setToReg _ _ | bitwiseOr _ _ | bitwiseAnd _ _ | bitwiseXor _ _ | rand _ _
    | getDelayTimer _ | waitKey _ => exact written.symm
  | _ => exact written

/-! ### The one fault of each operation -/

/-- The latch is as it was, or holds `f`. -/
def latchSameOr (f : LatchedFault) (s t : State) : Prop := t.fault = s.fault ∨ t.fault = some f

section
variable (s : State)

theorem storeBytes_latch (base : Nat) (vs : List Byte) :
    endsIn (storeBytes base vs s) (latchSameOr (.addressOutOfRange (max base 4096)) s) :=
  storeBytes_endsIn base vs (fun _ _ _ _ h => h) (fun _ _ => .inr rfl) (.inl rfl)

theorem loadRegs_latch (base : Nat) (rs : List Reg) :
    endsIn (loadRegs base rs s) (latchSameOr (.addressOutOfRange (max base 4096)) s) :=
  loadRegs_endsIn base rs (fun _ _ _ _ h => h) (fun _ _ => .inr rfl) (.inl rfl)

theorem drawRows_latch (px py base left : Nat) :
    endsIn (drawRows px py base left 0 false s) (latchSameOr (.addressOutOfRange (max base 4096)) s) :=
  drawRows_endsIn px py base left 0 false (fun _ _ _ h => h) (fun _ _ => .inr rfl) (.inl rfl)

end

section
variable {s t : State} {f : LatchedFault}

/-- From no latched fault, what is latched is the one fault that the run can raise. -/
theorem eq_of_latchSameOr {r : Result} {g : LatchedFault} (h : endsIn r (latchSameOr g s)) (hs : s.fault = none)
    (ht : r = .next t) (hf : t.fault = some f) : f = g := by
  rcases h.of_eq ht with same | new
  · rw [hf, hs] at same
    cases same
  · exact Option.some.inj (hf.symm.trans new)

/-- An operation whose frame holds the latch raises nothing. -/
theorem no_fault_of_latch_kept {i : Instr} (hi : .latch ∉ partsWritten i) (hs : s.fault = none)
    (ht : exec i s = .next t) (hf : t.fault = some f) : False := by
  have kept : t.fault = s.fault := ((exec_sameExcept s i).of_eq ht).1 .latch hi
  rw [hf, hs] at kept
  cases kept

theorem exec_ret_fault (hs : s.fault = none) (ht : exec .ret s = .next t) (hf : t.fault = some f) :
    f = .stackUnderflow := by
  by_cases h : 0 < s.sp.val
  · rw [exec_ret_of_pos h] at ht
    cases ht
    cases hs.symm.trans hf
  · rw [exec_ret_of_empty h] at ht
    cases ht
    exact (Option.some.inj hf).symm

theorem exec_call_fault {nnn : BitVec 12} (hs : s.fault = none) (ht : exec (.call nnn) s = .next t)
    (hf : t.fault = some f) : f = .stackOverflow 16 := by
  by_cases h : s.sp.val < 16
  · rw [exec_call_of_room nnn h] at ht
    cases ht
    cases hs.symm.trans hf
  · rw [exec_call_of_full nnn h] at ht
    cases ht
    exact (Option.some.inj hf).symm

/-- A key skip, on the key or on its negation, raises only where the key number is above 0xF (R177). -/
theorem keySkip_fault {k : Byte} {c : Bool → Bool} (hs : s.fault = none)
    (ht : orRaise (keyRead s k) s (fun pressed => .next (skipIf (c pressed) s)) = .next t)
    (hf : t.fault = some f) : f = .keyIndexOutOfRange k ∧ 0xF < k.toNat := by
  by_cases h : k.toNat < 16
  · rw [keyRead_ok h, orRaise_ok, skipIf_eq] at ht
    cases ht
    cases hs.symm.trans hf
  · rw [keyRead_error h, orRaise_error] at ht
    cases ht
    exact ⟨(Option.some.inj hf).symm, by omega⟩

end

/-- Settles O15: the operations that can raise, one by one; the others keep the latch. -/
theorem eachOperationHasItsOneFault : Obligations.EachOperationHasItsOneFault := by
  intro i s t f hs ht hf
  cases i with
  | call nnn => exact exec_call_fault hs ht hf
  | ret => exact exec_ret_fault hs ht hf
  | drawSprite _ _ _ => exact eq_of_latchSameOr (drawRows_latch s _ _ _ _) hs ht hf
  | bcd _ | loadIntoRam _ => exact eq_of_latchSameOr (storeBytes_latch s _ _) hs ht hf
  | loadFromRam _ => exact eq_of_latchSameOr (loadRegs_latch s _ _) hs ht hf
  | skipIfKeyPressed x => exact keySkip_fault (c := id) hs ht hf
  | skipIfKeyNotPressed x => exact keySkip_fault (c := not) hs ht hf
  | _ => exact no_fault_of_latch_kept (by simp [partsWritten]) hs ht hf

/-! ### What no program observes: the random byte and the sound timer -/

/-- Another random byte and another sound timer, all else as in `s`. -/
def retouch (g h : Byte → Byte) (s : State) : State := (s.writeRand (g s.rand)).writeST (h s.ST)

/-- The run answers the next state that `r` answers, changed by `f`. -/
def mapNext (f : State → State) : Result → Result
  | .next t => .next (f t)
  | .fault e => .fault e
  | .refused e => .refused e

section
variable (g h : Byte → Byte)

/-- A primitive that answers alike in both states goes on or raises alike. -/
theorem orRaise_retouch {α : Type} {p : Except LatchedFault α} {s : State} {k k' : α → Result}
    (hk : ∀ v, k' v = mapNext (retouch g h) (k v)) :
    orRaise p (retouch g h s) k' = mapNext (retouch g h) (orRaise p s k) := by
  cases p with
  | ok v => exact hk v
  | error f => rfl

theorem storeBytes_retouch (base : Nat) (vs : List Byte) (s : State) :
    storeBytes base vs (retouch g h s) = mapNext (retouch g h) (storeBytes base vs s) := by
  induction vs generalizing base s with
  | nil => rfl
  | cons v vs ih =>
    rw [storeBytes, storeBytes]
    by_cases hb : base < 4096
    · rw [memWrite_ok hb, memWrite_ok hb, orRaise_ok, orRaise_ok]
      exact ih (base + 1) (s.writeMem (Memory.write s.mem base v))
    · rw [memWrite_error (by omega), memWrite_error (by omega)]
      rfl

theorem loadRegs_retouch (base : Nat) (rs : List Reg) (s : State) :
    loadRegs base rs (retouch g h s) = mapNext (retouch g h) (loadRegs base rs s) := by
  induction rs generalizing base s with
  | nil => rfl
  | cons r rs ih => exact orRaise_retouch g h fun b => ih (base + 1) (s.writeV r b)

theorem drawRows_retouch (px py base left row : Nat) (collided : Bool) (s : State) :
    drawRows px py base left row collided (retouch g h s) =
      mapNext (retouch g h) (drawRows px py base left row collided s) := by
  induction left generalizing row collided s with
  | zero => rfl
  | succ left ih =>
    refine orRaise_retouch g h fun b => ?_
    dsimp only
    rw [← ih]
    rfl

theorem skipIf_retouch (taken : Bool) (s : State) :
    skipIf taken (retouch g h s) = retouch g h (skipIf taken s) := by
  rw [skipIf_eq, skipIf_eq]
  rfl

theorem exec_ret_retouch (s : State) : exec .ret (retouch g h s) = mapNext (retouch g h) (exec .ret s) := by
  by_cases hsp : 0 < s.sp.val
  · rw [exec_ret_of_pos hsp, exec_ret_of_pos (s := retouch g h s) hsp]
    rfl
  · rw [exec_ret_of_empty hsp, exec_ret_of_empty (s := retouch g h s) hsp]
    rfl

theorem exec_call_retouch (nnn : BitVec 12) (s : State) :
    exec (.call nnn) (retouch g h s) = mapNext (retouch g h) (exec (.call nnn) s) := by
  by_cases hsp : s.sp.val < 16
  · rw [exec_call_of_room nnn hsp, exec_call_of_room (s := retouch g h s) nnn hsp]
    rfl
  · rw [exec_call_of_full nnn hsp, exec_call_of_full (s := retouch g h s) nnn hsp]
    rfl

theorem exec_waitKey_retouch (x : Reg) (s : State) :
    exec (.waitKey x) (retouch g h s) = mapNext (retouch g h) (exec (.waitKey x) s) := by
  cases hk : firstPressed s with
  | some k =>
    rw [exec_waitKey_of_some hk, exec_waitKey_of_some (s := retouch g h s) hk]
    rfl
  | none =>
    rw [exec_waitKey_of_none hk, exec_waitKey_of_none (s := retouch g h s) hk]
    rfl

/-- Rand and SetSoundTimer aside, an operation neither reads nor writes the random byte and ST (R35, R193). -/
theorem exec_retouch (i : Instr) (s : State) (hrand : ∀ x kk, i ≠ .rand x kk)
    (hsound : ∀ x, i ≠ .setSoundTimer x) :
    exec i (retouch g h s) = mapNext (retouch g h) (exec i s) := by
  cases i with
  | rand x kk => exact absurd rfl (hrand x kk)
  | setSoundTimer x => exact absurd rfl (hsound x)
  | ret => exact exec_ret_retouch g h s
  | call nnn => exact exec_call_retouch g h nnn s
  | waitKey x => exact exec_waitKey_retouch g h x s
  | skipIfValEQ _ _ | skipIfValNE _ _ | skipIfRegEQ _ _ | skipIfRegNE _ _ =>
    exact congrArg Host.Outcome.next (skipIf_retouch g h _ s)
  | skipIfKeyPressed _ | skipIfKeyNotPressed _ =>
    exact orRaise_retouch g h fun _ => congrArg Host.Outcome.next (skipIf_retouch g h _ s)
  | drawSprite _ _ _ => exact drawRows_retouch g h _ _ _ _ _ _ s
  | bcd _ | loadIntoRam _ => exact storeBytes_retouch g h _ _ s
  | loadFromRam _ => exact loadRegs_retouch g h _ _ s
  | _ => rfl

end

theorem writeRand_eq_retouch (b : Byte) (s : State) : s.writeRand b = retouch (fun _ => b) id s := rfl

theorem writeST_eq_retouch (b : Byte) (s : State) : s.writeST b = retouch id (fun _ => b) s := rfl

/-- Settles O16: SetSoundTimer writes ST from a register, the others are `exec_retouch`. -/
theorem onlyRandReadsTheRandomByte : Obligations.OnlyRandReadsTheRandomByte := by
  intro i s t b hrand ht
  by_cases hsound : ∃ x, i = .setSoundTimer x
  · obtain ⟨x, rfl⟩ := hsound
    cases ht
    rfl
  · rw [writeRand_eq_retouch, exec_retouch _ _ i s hrand (by simpa using hsound), ht]
    rfl

/-- Settles O17: SetSoundTimer overwrites ST and Rand ignores it, the others are `exec_retouch`. -/
theorem soundTimerIsInvisibleToPrograms : Obligations.SoundTimerIsInvisibleToPrograms := by
  intro i s t b ht
  by_cases hsound : ∃ x, i = .setSoundTimer x
  · obtain ⟨x, rfl⟩ := hsound
    cases ht
    exact ⟨_, rfl, rfl⟩
  by_cases hrand : ∃ x kk, i = .rand x kk
  · obtain ⟨x, kk, rfl⟩ := hrand
    cases ht
    exact ⟨_, rfl, rfl⟩
  · refine ⟨t.writeST b, ?_, rfl⟩
    rw [writeST_eq_retouch, exec_retouch _ _ i s (by simpa using hrand) (by simpa using hsound), ht]
    rfl

end Sys2Proof.Machine
end

section
/-! Index and memory operations (43_index_and_memory.md, 20_memory.md): what BCD, LoadIntoRam and LoadFromRam
leave in memory and registers, inside memory and past its end, what the next fetch reads, and memory as data. -/

namespace Sys2Proof.Machine

/-! ### A run of stores, inside memory and past its end -/

section
variable {vs : List Byte} {base : Nat} {s : State}

/-- The state after the stores of `vs` from `base` on whose addresses exist (R96). -/
def storedState (base : Nat) (vs : List Byte) (s : State) : State :=
  s.writeMem (Memory.writeAll s.mem base (vs.take (4096 - base)))

theorem storeBytes_inside (h : base + vs.length ≤ 4096) :
    storeBytes base vs s = .next (storedState base vs s) := by
  rw [storeBytes_eq, if_pos (.inl h), storedState, List.take_of_length_le (by omega)]

theorem storeBytes_past_end (h : 4096 < base + vs.length) (hv : vs ≠ []) :
    storeBytes base vs s =
      .next ((storedState base vs s).writeFault (some (.addressOutOfRange (max base 4096)))) := by
  rw [storeBytes_eq, if_neg (by simp only [hv, or_false]; omega), storedState]

/-- Each byte whose address exists is stored. -/
theorem storedState_byteAt_self (hm : Memory.wf s.mem) (k : Nat) (hk : k < vs.length) (ha : base + k ≤ 0xFFF) :
    (storedState base vs s).byteAt (base + k) = vs[k] := by
  have hlen : (vs.take (4096 - base)).length = min (4096 - base) vs.length := List.length_take
  have stored := Memory.read_writeAll_self (vs.take (4096 - base)) s.mem hm base (by omega) k (by omega)
  rw [List.getElem_take] at stored
  exact stored

/-- Every other byte is as before. -/
theorem storedState_byteAt_other {a : Nat} (ha : ∀ k, k < vs.length → base + k ≤ 0xFFF → a ≠ base + k) :
    (storedState base vs s).byteAt a = s.byteAt a := by
  have hlen : (vs.take (4096 - base)).length = min (4096 - base) vs.length := List.length_take
  refine Memory.read_writeAll_other _ _ _ _ ?_
  by_contra hin
  exact ha (a - base) (by omega) (by omega) (by omega)

theorem storedState_sameExcept : sameExcept [.memory] s (storedState base vs s) := sameExcept_writeMem s _

theorem storedState_writeFault_sameExcept (f : Option LatchedFault) :
    sameExcept [.memory, .latch] s ((storedState base vs s).writeFault f) :=
  (sameExcept_mono storedState_sameExcept (by simp)).andThen (sameExcept_writeFault _ f) (by simp)

end

/-! ### BCD and LoadIntoRam -/

theorem dataAddr_eq_add (s : State) (k : Nat) : dataAddr s k = dataAddr s 0 + k := rfl

theorem dataAddr_mono (s : State) {k n : Nat} (h : k ≤ n) : dataAddr s k ≤ dataAddr s n :=
  Nat.add_le_add_left h _

@[simp] theorem bcdDigits_length (v : Byte) : (bcdDigits v).length = 3 := rfl

/-- A digit of a byte fits a byte. -/
theorem bcdDigits_toNat (v : Byte) :
    (bcdDigits v)[0].toNat = v.toNat / 100 ∧ (bcdDigits v)[1].toNat = v.toNat / 10 % 10 ∧
      (bcdDigits v)[2].toNat = v.toNat % 10 := by
  have := v.isLt
  simp only [bcdDigits, List.getElem_cons_zero, List.getElem_cons_succ, BitVec.toNat_ofNat]
  omega

theorem regsUpTo_map_getElem (x k : Reg) (s : State) (h : k.val < ((regsUpTo x).map s.reg).length) :
    ((regsUpTo x).map s.reg)[k.val] = s.reg k := by
  rw [List.getElem_map, regsUpTo_getElem]

/-- The stored registers read back, each at its own address. -/
theorem storedState_regs (x : Reg) {s : State} (hm : Memory.wf s.mem) {k : Reg} (hk : k ≤ x)
    (ha : dataAddr s k.val ≤ 0xFFF) :
    (storedState (dataAddr s 0) ((regsUpTo x).map s.reg) s).byteAt (dataAddr s k.val) = s.reg k := by
  have hlen : k.val < ((regsUpTo x).map s.reg).length := by
    rw [List.length_map, regsUpTo_length]
    exact Nat.lt_succ_of_le hk
  rw [dataAddr_eq_add s k.val] at ha ⊢
  rw [storedState_byteAt_self hm k.val hlen ha, regsUpTo_map_getElem]

/-- Settles O35: three digits, stored inside memory. -/
theorem bcdStoresTheDigits : Obligations.BcdStoresTheDigits := by
  intro x s hm haddr
  rw [dataAddr_eq_add] at haddr
  have digit := fun k hk => storedState_byteAt_self (vs := bcdDigits (s.reg x)) (base := dataAddr s 0) hm k hk
    (by rw [bcdDigits_length] at hk; omega)
  obtain ⟨hundreds, tens, ones⟩ := bcdDigits_toNat (s.reg x)
  refine ⟨_, storeBytes_inside (by rw [bcdDigits_length]; omega), ?_, ?_, ?_, fun a ha => ?_, storedState_sameExcept⟩
  · exact (congrArg BitVec.toNat (digit 0 (by simp))).trans hundreds
  · exact (congrArg BitVec.toNat (digit 1 (by simp))).trans tens
  · exact (congrArg BitVec.toNat (digit 2 (by simp))).trans ones
  · exact storedState_byteAt_other fun k hk _ => ha k hk

/-- Settles O36: `x + 1` registers, stored inside memory. -/
theorem loadIntoRamStoresTheRegisters : Obligations.LoadIntoRamStoresTheRegisters := by
  intro x s hm haddr
  have inside : dataAddr s 0 + ((regsUpTo x).map s.reg).length ≤ 4096 := by
    rw [dataAddr_eq_add] at haddr
    rw [List.length_map, regsUpTo_length]
    omega
  refine ⟨_, storeBytes_inside inside, fun k hk => ?_, fun a ha => ?_, storedState_sameExcept⟩
  · exact storedState_regs x hm hk ((dataAddr_mono s hk).trans haddr)
  · refine storedState_byteAt_other fun k hk _ => ha k ?_
    rw [List.length_map, regsUpTo_length] at hk
    omega

/-- Settles O38: the same two runs of stores, past the end of memory. -/
theorem storesPastTheEndLatchAfterTheLowBytes : Obligations.StoresPastTheEndLatchAfterTheLowBytes := by
  intro x s hm
  constructor
  · intro hpast
    rw [dataAddr_eq_add] at hpast
    have digit := storedState_byteAt_self (vs := bcdDigits (s.reg x)) (base := dataAddr s 0) hm
    obtain ⟨hundreds, tens, _⟩ := bcdDigits_toNat (s.reg x)
    refine ⟨_, storeBytes_past_end (by rw [bcdDigits_length]; omega) (by simp [bcdDigits]), rfl,
      fun h0 => ?_, fun h1 => ?_, fun a ha => ?_, storedState_writeFault_sameExcept _⟩
    · exact (congrArg BitVec.toNat (digit 0 (by simp) h0)).trans hundreds
    · exact (congrArg BitVec.toNat (digit 1 (by simp) h1)).trans tens
    · refine storedState_byteAt_other fun k hk hle => ha k ?_ hle
      rw [bcdDigits_length] at hk
      omega
  · intro hpast
    rw [dataAddr_eq_add] at hpast
    have hlen : ((regsUpTo x).map s.reg).length = x.val + 1 := by rw [List.length_map, regsUpTo_length]
    refine ⟨_, storeBytes_past_end (by omega) (List.ne_nil_of_length_eq_add_one hlen), rfl,
      fun k hk hle => ?_, fun a ha => ?_, storedState_writeFault_sameExcept _⟩
    · exact storedState_regs x hm hk hle
    · exact storedState_byteAt_other fun k hk hle => ha k (by omega) hle

/-! ### LoadFromRam -/

/-- Everything LoadFromRam does (R145, R96): the registers whose byte exists are loaded, and the latch takes
the first missing address. -/
theorem exec_loadFromRam (x : Reg) (s : State) :
    ∃ t, exec (.loadFromRam x) s = .next t ∧ sameExcept [.regs, .latch] s t ∧
      (∀ k, k ≤ x → t.reg k = if dataAddr s k.val ≤ 0xFFF then s.byteAt (dataAddr s k.val) else s.reg k) ∧
      (∀ r, x < r → t.reg r = s.reg r) ∧
      t.fault = if dataAddr s x.val ≤ 0xFFF then s.fault
        else some (.addressOutOfRange (max (dataAddr s 0) 0x1000)) := by
  obtain ⟨V, hload, loaded, others⟩ := loadRegs_spec (regsUpTo x) (dataAddr s 0) s (regsUpTo_nodup x)
  refine ⟨_, hload, (loadRegs_sameExcept s _ _).of_eq hload, fun k hk => ?_, fun r hr => ?_, ?_⟩
  · have hlt : k.val < (regsUpTo x).length := by
      rw [regsUpTo_length]
      exact Nat.lt_succ_of_le hk
    have at_k := loaded k.val hlt
    rw [regsUpTo_getElem] at at_k
    refine at_k.trans (if_congr ?_ rfl rfl)
    rw [dataAddr_eq_add s k.val]
    omega
  · exact others r fun hmem => absurd ((mem_regsUpTo x r).1 hmem) (not_le.2 hr)
  · refine if_congr ?_ rfl rfl
    have nonempty : regsUpTo x ≠ [] := List.ne_nil_of_length_eq_add_one (regsUpTo_length x)
    rw [dataAddr_eq_add s x.val, regsUpTo_length]
    simp only [nonempty, or_false]
    omega

/-- Settles O37: with the last byte in memory every byte of the run is, and the latch is kept. -/
theorem loadFromRamLoadsTheRegisters : Obligations.LoadFromRamLoadsTheRegisters := by
  intro x s haddr
  obtain ⟨t, ht, frame, loaded, others, latch⟩ := exec_loadFromRam x s
  rw [if_pos haddr] at latch
  refine ⟨t, ht, fun k hk => ?_, others, sameExcept_of_same frame fun p hp hnot => ?_⟩
  · rw [loaded k hk, if_pos ((dataAddr_mono s hk).trans haddr)]
  · obtain rfl : p = .latch := by simpa [show p ≠ .regs by simpa using hnot] using hp
    exact latch

/-- Settles O39: the registers of missing bytes keep their value. -/
theorem loadPastTheEndLatchesAfterTheLowRegisters :
    Obligations.LoadPastTheEndLatchesAfterTheLowRegisters := by
  intro x s hpast
  obtain ⟨t, ht, frame, loaded, others, latch⟩ := exec_loadFromRam x s
  rw [if_neg (by omega)] at latch
  refine ⟨t, ht, latch, fun k hk hle => ?_, fun k hk => ?_, frame⟩
  · rw [loaded k hk, if_pos hle]
  · rcases lt_or_ge x k with habove | hk'
    · exact others k habove
    · have missing : 0xFFF < dataAddr s k.val := hk.resolve_left (not_lt.2 hk')
      rw [loaded k hk', if_neg (by omega)]

/-! ### What the next fetch reads -/

/-- A fetch reads the bytes that lie over memory, wherever `pc` is set to. -/
theorem fetch_overlaid {s t : State} {p : Word} {stored : List Byte} {base : Nat} (hp : p.toNat + 1 ≤ 0xFFF)
    (ht : ∀ a, a ≤ 0xFFF → t.byteAt a = overlaid stored base s a) :
    fetch (t.writePc p) = .ok (overlaidWord stored base s p.toNat) := by
  rw [fetch_ok (s := t.writePc p) hp, overlaidWord, ← ht p.toNat (by omega), ← ht (p.toNat + 1) hp]
  rfl

/-- Settles O40: both operations are runs of stores, and LOAD_ROM that fits is one write of all its bytes. -/
theorem storedBytesAreFetchedNext : Obligations.StoredBytesAreFetchedNext := by
  refine ⟨fun x s p hm hp => ⟨?bcd, ?loadIntoRam⟩, fun bytes s p hm hfits hp => ?loadRom⟩
  case bcd =>
    obtain ⟨t, ht, bytes⟩ := storeBytes_overlaid (bcdDigits (s.reg x)) (dataAddr s 0) s hm
    exact ⟨t, ht, fetch_overlaid hp bytes⟩
  case loadIntoRam =>
    obtain ⟨t, ht, bytes⟩ := storeBytes_overlaid ((regsUpTo x).map s.reg) (dataAddr s 0) s hm
    exact ⟨t, ht, fetch_overlaid hp bytes⟩
  case loadRom =>
    refine ⟨_, rfl, fetch_overlaid hp fun a _ => ?_⟩
    rw [loadRom_of_fits hfits, State.writeReply_byteAt]
    exact byteAt_writeAll bytes 0x200 s hm (by omega) a

/-! ### Canonical memories -/

namespace Memory

theorem wf_tail {c : Host.Cell} {m : List Host.Cell} (h : wf (c :: m)) : wf m :=
  ⟨(List.pairwise_cons.1 h.1).2, fun d hd => h.2 d (List.mem_cons_of_mem c hd)⟩

/-- The first cell is not what its address reads as unlisted. -/
theorem head_ne_unlisted {c : Host.Cell} {m : List Host.Cell} (h : wf (c :: m)) : c.2 ≠ unlisted c.1 :=
  (h.2 c List.mem_cons_self).2

theorem read_head (c : Host.Cell) (m : List Host.Cell) : read (c :: m) c.1 = c.2 := by
  rw [read_cons, if_pos rfl]

/-- An address below the first cell is not listed. -/
theorem read_below_head {c : Host.Cell} {m : List Host.Cell} (h : wf (c :: m)) {a : Nat} (ha : a < c.1) :
    read (c :: m) a = unlisted a := by
  refine read_of_not_mem _ _ fun d hd => ?_
  rcases List.mem_cons.1 hd with rfl | htail
  · omega
  · have := (List.pairwise_cons.1 h.1).1 d htail
    omega

/-- Memories that read the same do not start with one cell below the other. -/
theorem head_not_lt {c d : Host.Cell} {m n : List Host.Cell} (hc : wf (c :: m)) (hd : wf (d :: n))
    (hread : ∀ a, read (c :: m) a = read (d :: n) a) : ¬ c.1 < d.1 := fun hlt =>
  head_ne_unlisted hc ((read_head c m).symm.trans ((hread c.1).trans (read_below_head hd hlt)))

theorem eq_of_read_eq {m n : List Host.Cell} (hm : wf m) (hn : wf n) (hread : ∀ a, read m a = read n a) :
    m = n := by
  induction m generalizing n with
  | nil =>
    cases n with
    | nil => rfl
    | cons d n => exact absurd ((read_head d n).symm.trans (hread d.1).symm) (head_ne_unlisted hn)
  | cons c m ih =>
    cases n with
    | nil => exact absurd ((read_head c m).symm.trans (hread c.1)) (head_ne_unlisted hm)
    | cons d n =>
      have haddr : c.1 = d.1 := Nat.le_antisymm (not_lt.1 (head_not_lt hn hm fun a => (hread a).symm))
        (not_lt.1 (head_not_lt hm hn hread))
      have hbyte : c.2 = d.2 := by
        rw [← read_head c m, hread, haddr, read_head]
      have htail : m = n := ih (wf_tail hm) (wf_tail hn) fun a => by
        rw [read_tail c m hm, read_tail d n hn, haddr, hread]
      rw [Prod.ext haddr hbyte, htail]

end Memory

/-- Settles O41: cell by cell, from the lowest listed address on. -/
theorem canonicalMemoriesWithEqualReadsAreEqual : Obligations.CanonicalMemoriesWithEqualReadsAreEqual :=
  fun _ _ hm hn hread => Memory.eq_of_read_eq hm hn hread

end Sys2Proof.Machine
end

section
/-! DrawSprite (44_display.md R152, R153): the pixels it toggles, the collision it flags, a draw past the end
of memory, and drawing twice. -/

namespace Sys2Proof.Machine

theorem mem_columns (k : Nat) : k ∈ [0, 1, 2, 3, 4, 5, 6, 7] ↔ k < 8 := by
  simp only [List.mem_cons, List.not_mem_nil, or_false]
  omega

/-- The rows of a whole draw cover the pixels that the sprite covers. -/
theorem rowsOn_iff_spriteCovers (s : State) (x y : Reg) (n : Nat) (c : Fin 64) (r : Fin 32) :
    rowsOn s (s.reg x).toNat (s.reg y).toNat (dataAddr s 0) 0 n c r ↔ spriteCovers s x y n c r := by
  simp only [rowsOn, bitsOn, mem_columns, spriteCovers, screenRow, screenCol, Fin.ext_iff]
  constructor
  · rintro ⟨row, hlt, -, hrow, col, hcol, hc, hbit⟩
    exact ⟨row, col, by omega, hcol, hc, hrow, hbit⟩
  · rintro ⟨row, col, hlt, hcol, hc, hrow, hbit⟩
    exact ⟨row, by omega, by omega, hrow, col, hcol, hc, hbit⟩

theorem not_spriteCovers_zero (s : State) (x y : Reg) (c : Fin 64) (r : Fin 32) :
    ¬ spriteCovers s x y 0 c r := by
  rintro ⟨_, _, hrow, _⟩
  exact absurd hrow (Nat.not_lt_zero _)

theorem collisionFlag_eq_one_iff (hit : Bool) : collisionFlag hit = 1 ↔ hit = true := by
  cases hit <;> decide

theorem collisionFlag_cases (hit : Bool) : collisionFlag hit = 0 ∨ collisionFlag hit = 1 := by
  cases hit
  · exact .inl rfl
  · exact .inr rfl

theorem xor_decide_ne_iff (b : Bool) (p : Prop) [Decidable p] : (b ^^ decide p) ≠ b ↔ p := by
  by_cases h : p <;> cases b <;> simp [h]

theorem exec_drawSprite_zero (x y : Reg) (s : State) : exec (.drawSprite x y 0) s = .next s := rfl

/-- A draw of `n ≥ 1` rows that all exist: the screen and VF are all it writes (R152). -/
theorem exec_drawSprite_of_rows {n : Nat} (x y : Reg) {s : State} (hpos : 0 < n) (h32 : n ≤ 32)
    (hmem : s.I.toNat + n ≤ 0x1000) :
    ∃ (fb : Framebuffer) (hit : Bool),
      exec (.drawSprite x y n) s = .next ((s.writeFb fb).writeVF (collisionFlag hit)) ∧
      (∀ c r, fb[r][c] ≠ s.pixel c r ↔ spriteCovers s x y n c r) ∧
      (hit = true ↔ ∃ c r, s.pixel c r = true ∧ spriteCovers s x y n c r) := by
  obtain ⟨fb, hit, hdraw, hfb, hhit⟩ := drawRows_spec (s.reg x).toNat (s.reg y).toNat (dataAddr s 0) n 0 false s
    (by simp only [dataAddr]; omega) h32
  rw [if_neg (by omega)] at hdraw
  refine ⟨fb, hit, hdraw, fun c r => ?_, ?_⟩
  · rw [hfb, ← rowsOn_iff_spriteCovers]
    exact xor_decide_ne_iff (s.pixel c r) _
  · simp only [Bool.false_eq_true, false_or, rowsOn_iff_spriteCovers] at hhit
    exact hhit

/-- What a draw does to the pixels, with or without rows. -/
theorem exec_drawSprite_pixels {n : Nat} (x y : Reg) {s : State} (h32 : n ≤ 32)
    (hmem : s.I.toNat + n ≤ 0x1000) :
    endsIn (exec (.drawSprite x y n) s) fun t => ∀ c r, t.pixel c r ≠ s.pixel c r ↔ spriteCovers s x y n c r := by
  rcases Nat.eq_zero_or_pos n with rfl | hpos
  · exact endsIn_next fun c r => iff_of_false (fun h => h rfl) (not_spriteCovers_zero s x y c r)
  · obtain ⟨fb, hit, hdraw, hfb, -⟩ := exec_drawSprite_of_rows x y hpos h32 hmem
    exact ⟨_, hdraw, hfb⟩

/-- Settles O43: without rows the draw does nothing, with rows it writes the screen and VF. -/
theorem drawSpriteTogglesAndFlagsCollision : Obligations.DrawSpriteTogglesAndFlagsCollision := by
  intro x y n s hn hmem
  rcases Nat.eq_zero_or_pos n with rfl | hpos
  · exact ⟨s, exec_drawSprite_zero x y s,
      fun c r => iff_of_false (fun h => h rfl) (not_spriteCovers_zero s x y c r), fun _ => rfl,
      fun h => absurd h (Nat.lt_irrefl 0), fun _ _ => rfl, sameExcept_refl _ s⟩
  · obtain ⟨fb, hit, hdraw, hfb, hhit⟩ :=
      exec_drawSprite_of_rows x y hpos (by omega) (hmem.resolve_right (by omega))
    refine ⟨_, hdraw, hfb, fun h => absurd h (by omega), fun _ => ?_, fun r hr => ?_, ?_⟩
    · rw [State.writeVF_reg, if_pos rfl]
      exact ⟨collisionFlag_cases hit, (collisionFlag_eq_one_iff hit).trans hhit⟩
    · rw [State.writeVF_reg, if_neg hr, State.writeFb_reg]
    · exact (sameExcept_mono (sameExcept_writeFb s fb) (by simp)).andThen (sameExcept_writeVF _ _) (by simp)

/-- Settles O44: the `m` rows inside memory end at 0x1000, or there are none. -/
theorem drawPastTheEndLatchesAfterTheRowsBefore : Obligations.DrawPastTheEndLatchesAfterTheRowsBefore := by
  intro x y n m s _ hm hlt
  obtain ⟨u, hbefore, hpast⟩ := drawRows_past_end (s.reg x).toNat (s.reg y).toNat (dataAddr s 0) m (n - m - 1) 0
    false s (by simp only [dataAddr]; omega)
  rw [show m + (n - m - 1 + 1) = n by omega] at hpast
  exact ⟨u, hbefore, hpast⟩

/-- The sprite covers the same pixels in a state with the same index, coordinates and bytes. -/
theorem spriteCovers_congr {s t : State} {x y : Reg} {n : Nat} (hI : t.I = s.I) (hx : t.reg x = s.reg x)
    (hy : t.reg y = s.reg y) (hbytes : ∀ a, t.byteAt a = s.byteAt a) (c : Fin 64) (r : Fin 32) :
    spriteCovers t x y n c r ↔ spriteCovers s x y n c r := by
  simp only [spriteCovers, dataAddr, hI, hx, hy, hbytes]

/-- Settles O45: the second draw toggles the pixels that the first one toggled. -/
theorem drawingTwiceRestoresTheScreen : Obligations.DrawingTwiceRestoresTheScreen := by
  intro x y n s hn hmem hx hy
  obtain ⟨t, ht, first⟩ := exec_drawSprite_pixels x y (n := n) (s := s) (by omega) hmem
  obtain ⟨frame, _⟩ := (exec_sameExcept s _).of_eq ht
  have hI : t.I = s.I := frame .index (by simp [partsWritten])
  have hbytes : ∀ a, t.byteAt a = s.byteAt a := frame .memory (by simp [partsWritten])
  have hregs := (exec_regsSameOutside _ s).of_eq ht
  obtain ⟨u, hu, second⟩ := exec_drawSprite_pixels x y (n := n) (s := t) (by omega) (by rwa [hI])
  refine ⟨t, u, ht, hu, fun c r => ?_⟩
  have same := spriteCovers_congr (n := n) hI (hregs x hx) (hregs y hy) hbytes c r
  have toggled : u.pixel c r ≠ t.pixel c r ↔ t.pixel c r ≠ s.pixel c r :=
    ((second c r).trans same).trans (first c r).symm
  revert toggled
  cases u.pixel c r <;> cases t.pixel c r <;> cases s.pixel c r <;> decide

end Sys2Proof.Machine
end

section
/-! Control flow (41_control_flow.md): jumps, skips, Call and Return. -/

namespace Sys2Proof.Machine

/-! ### Jumps -/

/-- A fetch at 0xFFF or above faults (R50, R86). -/
theorem fetch_error_of_pc {s : State} {a : Nat} (hpc : s.pc.toNat = a) (ha : 0xFFF ≤ a) :
    fetch s = .error (.addressOutOfRange a) := by
  rw [fetch_error (by omega), hpc]

theorem exec_jump (nnn : BitVec 12) (s : State) : exec (.jump nnn) s = .next (s.writePc (zext16 nnn)) := rfl

/-- Settles O19: at the end of an idle loop `pc` is where it was, and nothing else was written. -/
theorem jumpGoesToItsAddress : Obligations.JumpGoesToItsAddress := by
  intro nnn s
  have decoded : decode (wordNNN 0x1 nnn) = .ok (.jump nnn) := decode_encode (i := .jump nnn) rfl
  refine ⟨decoded, ⟨_, exec_jump nnn s, zext16_toNat nnn, sameExcept_writePc s _, ?_⟩, fun hs hpc hw => ?_⟩
  · rintro rfl
    exact fetch_error_of_pc (zext16_toNat 0xFFF) le_rfl
  · refine ⟨_, tick_ok_of_exec hs hw decoded (exec_jump nnn _) hs, rfl, ?_⟩
    have frame : keepsParts [.pc] s (((advance s).writePc (zext16 nnn)).writeReply .ok) :=
      keepsParts_mono (keepsParts_trans (keepsParts_trans (keepsParts_writePc s _) (keepsParts_writePc _ _))
        (keepsParts_writeReply _ _)) (by simp)
    refine keepsParts_of_same frame fun p hp _ => ?_
    obtain rfl : p = .pc := List.mem_singleton.1 hp
    exact BitVec.eq_of_toNat_eq ((zext16_toNat nnn).trans hpc.symm)

/-- Settles O22: `V[0] + nnn` is at most 0x10FE, so the 16-bit sum does not wrap. -/
theorem jumpV0DistanceAddsV0 : Obligations.JumpV0DistanceAddsV0 := fun nnn s =>
  ⟨decode_encode (i := .jumpV0Distance nnn) rfl, _, rfl, v0Target_toNat s nnn, sameExcept_writePc s _,
    fetch_error_of_pc rfl⟩

/-! ### Skips -/

section
variable (s : State) (a b : Byte)

theorem skipIf_beq_pc :
    (skipIf (a == b) s).pc = if a.toNat = b.toNat then s.pc + 2 else s.pc := by
  simp only [skipIf_eq, State.writePc_pc, beq_iff_eq, BitVec.toNat_inj]

theorem skipIf_bne_pc :
    (skipIf (a != b) s).pc = if a.toNat = b.toNat then s.pc else s.pc + 2 := by
  simp only [skipIf_eq, State.writePc_pc, bne_iff_ne, BitVec.toNat_inj, ite_not]

end

/-- Settles O20: one comparison of a register with `kk`, taken either way. -/
theorem skipIfValSkipsOnItsCondition : Obligations.SkipIfValSkipsOnItsCondition := fun x kk s =>
  ⟨decode_encode (i := .skipIfValEQ x kk) rfl, decode_encode (i := .skipIfValNE x kk) rfl,
    ⟨_, rfl, sameExcept_skipIf s _, skipIf_beq_pc s _ _⟩, _, rfl, sameExcept_skipIf s _, skipIf_bne_pc s _ _⟩

/-- In the groups 5xy0 and 9xy0 a minor nibble other than 0 makes the word invalid (R75). -/
theorem decode_wordXYN_invalid {op k : Nat} (hop : op = 0x5 ∨ op = 0x9) (x y : Reg) (hpos : 0 < k) (hk : k < 16) :
    decode (wordXYN op x y k) = .error (.invalid (wordXYN op x y k)) := by
  have := y.isLt
  have := x.isLt
  have hword := wordXYN_toNat op x y k (by omega) hk
  have opcode : bits (wordXYN op x y k) 15 12 = op := by
    rw [bits, hword]
    omega
  have minor : bits (wordXYN op x y k) 3 0 ≠ 0 := by
    rw [bits, hword]
    omega
  rw [decode_eq_error_iff, selected_by_no_row_iff, opcode]
  rcases hop with rfl | rfl
  · exact .inr (.inl ⟨rfl, minor⟩)
  · exact .inr (.inr (.inr (.inl ⟨rfl, minor⟩)))

/-- Settles O21: the same comparison with a second register, whose words have minor nibble 0. -/
theorem skipIfRegSkipsOnItsCondition : Obligations.SkipIfRegSkipsOnItsCondition := fun x y s =>
  ⟨decode_encode (i := .skipIfRegEQ x y) rfl, decode_encode (i := .skipIfRegNE x y) rfl,
    fun _ hpos hk => ⟨decode_wordXYN_invalid (.inl rfl) x y hpos hk, decode_wordXYN_invalid (.inr rfl) x y hpos hk⟩,
    ⟨_, rfl, sameExcept_skipIf s _, skipIf_beq_pc s _ _⟩, _, rfl, sameExcept_skipIf s _, skipIf_bne_pc s _ _⟩

/-! ### Call and Return -/

/-- Return pops entry `j` when `j + 1` entries are on the stack (R32, D18). -/
theorem exec_ret_of_entry {s : State} {j : Fin 16} (h : s.sp.val = j.val + 1) :
    exec .ret s = .next ((s.writeSp ⟨j.val, by omega⟩).writePc (s.stackAt j)) := by
  have index : s.sp.val - 1 = j.val := by omega
  rw [exec_ret_of_pos (by omega)]
  simp only [index]

/-- Settles O23: the push writes the slot at `sp`. -/
theorem callPushesAndJumps : Obligations.CallPushesAndJumps := by
  intro nnn s h
  refine ⟨_, exec_call_of_room nnn h, zext16_toNat nnn, rfl, ?_, fun j hj => ?_, ?_⟩
  · rw [State.writePc_stackAt, State.writeSp_stackAt, State.writeStack_stackAt, if_pos rfl]
  · rw [State.writePc_stackAt, State.writeSp_stackAt, State.writeStack_stackAt,
      if_neg fun e => hj (congrArg Fin.val e)]
  · exact (((sameExcept_refl _ s).andThen (sameExcept_writeStack s _ _) (by simp)).andThen
      (sameExcept_writeSp _ _) (by simp)).andThen (sameExcept_writePc _ _) (by simp)

/-- Settles O24: the pop lowers `sp` and writes no entry. -/
theorem returnPopsIntoPc : Obligations.ReturnPopsIntoPc := fun s _ h =>
  ⟨_, exec_ret_of_entry h, rfl, rfl, fun _ => rfl,
    ((sameExcept_refl _ s).andThen (sameExcept_writeSp s _) (by simp)).andThen (sameExcept_writePc _ _) (by simp)⟩

/-- Settles O25: a full stack and an empty one raise before anything is written. -/
theorem stackMisuseLatchesItsFault : Obligations.StackMisuseLatchesItsFault :=
  ⟨fun nnn s h => ⟨_, exec_call_of_full nnn (by omega), rfl, sameExcept_writeFault s _⟩,
    fun s h => ⟨_, exec_ret_of_empty (by omega), rfl, sameExcept_writeFault s _⟩⟩

/-- Settles O26: Return reads the slot that Call wrote, which lies below the body's `sp`. -/
theorem returnResumesAfterItsCall : Obligations.ReturnResumesAfterItsCall := by
  intro nnn s h
  obtain ⟨t, ht, -, depth, entry, -, -⟩ := callPushesAndJumps nnn s h
  refine ⟨t, ht, fun u hsp hstack => ?_⟩
  have depth' : u.sp.val = s.sp.val + 1 := by rw [hsp, depth]
  refine ⟨_, exec_ret_of_entry (j := ⟨s.sp.val, h⟩) depth', ?_, rfl⟩
  rw [State.writePc_pc, hstack ⟨s.sp.val, h⟩ (by simp only; omega), entry]

end Sys2Proof.Machine
end

section
/-! Register ALU, index register, display and key operations (42_register_alu.md to 45_keys_and_timers.md):
results and frames of the operations that write one part. -/

namespace Sys2Proof.Machine

/-! ### One register written -/

/-- What a write of `V[x]` gives: the value, the other registers, and the frame. -/
theorem writeV_result (s : State) (x : Reg) (v : Byte) :
    (s.writeV x v).reg x = v ∧ (∀ r, r ≠ x → (s.writeV x v).reg r = s.reg r) ∧
      sameExcept [.regs] s (s.writeV x v) :=
  ⟨State.writeV_reg_self s x v, fun r hr => State.writeV_reg_ne s x r v hr, sameExcept_writeV s x v⟩

/-- Settles O27: the 8-bit sum is the sum modulo 256. -/
theorem immediateLoadAndAdd : Obligations.ImmediateLoadAndAdd := by
  refine fun x kk s => ⟨decode_encode (i := .setToVal x kk) rfl, decode_encode (i := .addVal x kk) rfl,
    ⟨_, rfl, writeV_result s x kk⟩, _, rfl, ?_⟩
  obtain ⟨value, others, frame⟩ := writeV_result s x (s.reg x + kk)
  exact ⟨by rw [value, BitVec.toNat_add], others, frame⟩

/-- Settles O28: each bit of the result is the operation on the two bits. -/
theorem copyAndBitwiseOperations : Obligations.CopyAndBitwiseOperations := by
  refine fun x y s => ⟨⟨_, rfl, writeV_result s x _⟩, ⟨_, rfl, ?or⟩, ⟨_, rfl, ?and⟩, _, rfl, ?xor⟩
  case or => exact ⟨fun k _ => by rw [State.writeV_reg_self, BitVec.getLsbD_or], (writeV_result s x _).2⟩
  case and => exact ⟨fun k _ => by rw [State.writeV_reg_self, BitVec.getLsbD_and], (writeV_result s x _).2⟩
  case xor => exact ⟨fun k _ => by rw [State.writeV_reg_self, BitVec.getLsbD_xor], (writeV_result s x _).2⟩

/-- Settles O32: the mask is bitwise, for any random byte. -/
theorem randMasksTheRandomByte : Obligations.RandMasksTheRandomByte := fun x kk s =>
  ⟨_, rfl, fun k _ => by rw [State.writeV_reg_self, BitVec.getLsbD_and], (writeV_result s x _).2⟩

/-! ### A result and a flag -/

theorem flag_toNat (c : Bool) : (flag c).toNat = if c then 1 else 0 := by
  cases c <;> rfl

theorem carryFlag_toNat (a b : Byte) : (carryFlag a b).toNat = if 0xFF < a.toNat + b.toNat then 1 else 0 := by
  simp only [carryFlag, flag_toNat, decide_eq_true_eq, gt_iff_lt]

theorem notBorrowFlag_toNat (a b : Byte) : (notBorrowFlag a b).toNat = if a.toNat < b.toNat then 0 else 1 := by
  simp only [notBorrowFlag, flag_toNat, Bool.not_eq_true', decide_eq_false_iff_not, ite_not]

theorem sub_toNat_mod (a b : Byte) : (a - b).toNat = (a.toNat + 256 - b.toNat) % 256 := by
  rw [BitVec.toNat_sub]
  have := b.isLt
  omega

/-- What a result in `V[x]` and then a flag in VF give; with `x = F` the flag stays (D1). -/
theorem writeV_writeVF_result (s : State) (x : Reg) (v f : Byte) :
    (x ≠ regF → ((s.writeV x v).writeVF f).reg x = v) ∧ ((s.writeV x v).writeVF f).reg regF = f ∧
      (∀ r, r ≠ x → r ≠ regF → ((s.writeV x v).writeVF f).reg r = s.reg r) ∧
      sameExcept [.regs] s ((s.writeV x v).writeVF f) := by
  refine ⟨fun hx => ?_, ?_, fun r hrx hrF => ?_, sameExcept_writeV_writeV s _ _ _ _⟩
  · rw [State.writeVF_reg, if_neg hx, State.writeV_reg_self]
  · rw [State.writeVF_reg, if_pos rfl]
  · rw [State.writeVF_reg, if_neg hrF, State.writeV_reg_ne s x r v hrx]

/-- Settles O29: the flag is written last. -/
theorem addRegGivesSumAndCarry : Obligations.AddRegGivesSumAndCarry := by
  intro x y s
  obtain ⟨result, flag, others, frame⟩ :=
    writeV_writeVF_result s x (s.reg x + s.reg y) (carryFlag (s.reg x) (s.reg y))
  refine ⟨_, rfl, fun hx => ?_, ?_, others, frame⟩
  · rw [result hx, BitVec.toNat_add]
  · rw [flag, carryFlag_toNat]

/-- A subtraction `a - b` written to `V[x]`, with its flag (R127, R129). -/
theorem subtraction_result (s : State) (x : Reg) (a b : Byte) :
    endsIn (.next ((s.writeV x (a - b)).writeVF (notBorrowFlag a b))) fun t =>
      (x ≠ regF → (t.reg x).toNat = (a.toNat + 256 - b.toNat) % 256) ∧
      (t.reg regF).toNat = (if a.toNat < b.toNat then 0 else 1) ∧
      (∀ r, r ≠ x → r ≠ regF → t.reg r = s.reg r) ∧ sameExcept [.regs] s t := by
  obtain ⟨result, flag, others, frame⟩ := writeV_writeVF_result s x (a - b) (notBorrowFlag a b)
  refine endsIn_next ⟨fun hx => ?_, ?_, others, frame⟩
  · rw [result hx, sub_toNat_mod]
  · rw [flag, notBorrowFlag_toNat]

/-- Settles O30: the two subtractions differ in the order of their operands. -/
theorem subtractionsGiveDifferenceAndNotBorrow : Obligations.SubtractionsGiveDifferenceAndNotBorrow :=
  fun x y s => ⟨subtraction_result s x (s.reg x) (s.reg y), subtraction_result s x (s.reg y) (s.reg x)⟩

/-! ### A shift after its flag -/

theorem lowBitFlag_toNat (a : Byte) : (lowBitFlag a).toNat = a.toNat % 2 := by
  rw [lowBitFlag, BitVec.toNat_and]
  exact Nat.and_one_is_mod a.toNat

theorem highBitFlag_toNat (a : Byte) : (highBitFlag a).toNat = a.toNat / 128 := by
  have := a.isLt
  rw [highBitFlag, BitVec.toNat_and, BitVec.toNat_ushiftRight]
  refine (Nat.and_one_is_mod _).trans ?_
  rw [Nat.shiftRight_eq_div_pow]
  omega

theorem shiftRight_one_toNat (a : Byte) : (a >>> 1).toNat = a.toNat / 2 := by
  rw [BitVec.toNat_ushiftRight, Nat.shiftRight_eq_div_pow, pow_one]

theorem shiftLeft_one_toNat (a : Byte) : (a <<< 1).toNat = a.toNat * 2 % 256 := by
  rw [BitVec.toNat_shiftLeft, Nat.shiftLeft_eq, pow_one]

/-- What a flag in VF and then an operation `op` on `V[x]` give; with `x = F` the operation works on the
flag (D1). -/
theorem writeVF_writeV_result (s : State) (x : Reg) (f : Byte) (op : Byte → Byte) :
    endsIn (.next ((s.writeVF f).writeV x (op ((s.writeVF f).reg x)))) fun t =>
      (x ≠ regF → t.reg x = op (s.reg x) ∧ t.reg regF = f) ∧ (x = regF → t.reg regF = op f) ∧
      (∀ r, r ≠ x → r ≠ regF → t.reg r = s.reg r) ∧ sameExcept [.regs] s t := by
  refine endsIn_next ⟨fun hx => ⟨?_, ?_⟩, ?_, fun r hrx hrF => ?_, sameExcept_writeV_writeV s _ _ _ _⟩
  · rw [State.writeV_reg_self, State.writeVF_reg, if_neg hx]
  · rw [State.writeV_reg_ne _ _ _ _ hx.symm, State.writeVF_reg, if_pos rfl]
  · rintro rfl
    rw [State.writeV_reg_self, State.writeVF_reg, if_pos rfl]
  · rw [State.writeV_reg_ne _ _ _ _ hrx, State.writeVF_reg, if_neg hrF]

/-- Settles O31: the flag is one bit, so its half is 0 and its double does not wrap. -/
theorem shiftsGiveHalfAndDouble : Obligations.ShiftsGiveHalfAndDouble := by
  intro x y s
  have right := writeVF_writeV_result s x (lowBitFlag (s.reg x)) (· >>> 1)
  have left := writeVF_writeV_result s x (highBitFlag (s.reg x)) (· <<< 1)
  refine ⟨right.mono fun t ⟨hne, hF, rest⟩ => ⟨fun hx => ?_, fun hx => ?_, rest⟩,
    left.mono fun t ⟨hne, hF, rest⟩ => ⟨fun hx => ?_, fun hx => ?_, rest⟩⟩
  · obtain ⟨half, flag⟩ := hne hx
    rw [half, flag, shiftRight_one_toNat, lowBitFlag_toNat]
    exact ⟨rfl, rfl⟩
  · apply BitVec.eq_of_toNat_eq
    rw [hF hx, shiftRight_one_toNat, lowBitFlag_toNat]
    exact Nat.div_eq_of_lt (Nat.mod_lt _ Nat.two_pos)
  · obtain ⟨double, flag⟩ := hne hx
    rw [double, flag, shiftLeft_one_toNat, highBitFlag_toNat]
    exact ⟨rfl, rfl⟩
  · have := (s.reg x).isLt
    rw [hF hx, shiftLeft_one_toNat, highBitFlag_toNat, ← hx]
    omega

/-! ### Index register -/

theorem glyphAddr_toNat (v : Byte) : (glyphAddr v).toNat = v.toNat * 5 := by
  have := v.isLt
  rw [glyphAddr, BitVec.toNat_ofNat]
  simp only [Config.fontStart, Config.glyphBytes]
  omega

/-- Settles O33: `nnn` has 12 bits. -/
theorem setIndexLoadsItsAddress : Obligations.SetIndexLoadsItsAddress := by
  intro nnn s
  have hI : (zext16 nnn).toNat = nnn.toNat := zext16_toNat nnn
  have := nnn.isLt
  exact ⟨decode_encode (i := .setIndex nnn) rfl, _, rfl, hI, hI.trans_le (by omega), sameExcept_writeI s _⟩

/-- Settles O34: the glyph address of a byte is at most 0x4FB, so it does not wrap. -/
theorem indexArithmetic : Obligations.IndexArithmetic := fun x s =>
  ⟨⟨_, rfl, BitVec.toNat_ofNat _ _, sameExcept_writeI s _⟩,
    _, rfl, glyphAddr_toNat (s.reg x), sameExcept_writeI s _⟩

/-! ### Display, keys and timers -/

theorem blankScreen_get (c : Fin 64) (r : Fin 32) : blankScreen[r][c] = false := by
  simp only [blankScreen, Fin.getElem_fin, Vector.getElem_replicate]

/-- Settles O42: the screen is replaced by the blank one. -/
theorem clearScreenClearsEveryPixel : Obligations.ClearScreenClearsEveryPixel :=
  ⟨decode_encode (i := .clearScreen) rfl, fun s => ⟨_, rfl, blankScreen_get, sameExcept_writeFb s _⟩⟩

/-- Settles O46: `k` is the key that `V[x]` numbers. -/
theorem keySkipsFollowTheKey : Obligations.KeySkipsFollowTheKey := by
  intro x s k hk
  have hlt : (s.reg x).toNat < 16 := by omega
  have key : (⟨(s.reg x).toNat, hlt⟩ : Fin 16) = k := Fin.ext hk
  refine ⟨⟨_, exec_skipIfKeyPressed_of_key hlt, ?_, sameExcept_skipIf s _⟩,
    _, exec_skipIfKeyNotPressed_of_key hlt, ?_, sameExcept_skipIf s _⟩
  · rw [skipIf_eq, State.writePc_pc, key]
  · rw [skipIf_eq, State.writePc_pc, key]
    cases s.keyAt k <;> rfl

/-- Settles O47: the key read raises before anything is written. -/
theorem keySkipOutOfRangeLatches : Obligations.KeySkipOutOfRangeLatches := fun _ s h =>
  ⟨⟨_, exec_skipIfKeyPressed_of_no_key (by omega), rfl, sameExcept_writeFault s _⟩,
    _, exec_skipIfKeyNotPressed_of_no_key (by omega), rfl, sameExcept_writeFault s _⟩

/-- The scan answers the lowest pressed key. -/
theorem firstPressed_eq_some {s : State} {k : Fin 16} (hk : s.keyAt k = true)
    (hlow : ∀ j, j < k → s.keyAt j = false) : firstPressed s = some k := by
  cases h : firstPressed s with
  | none => simp [firstPressed_none h k] at hk
  | some q =>
    obtain ⟨hq, hqlow⟩ := firstPressed_some h
    rcases lt_trichotomy q k with hlt | rfl | hgt
    · simp [hlow q hlt] at hq
    · rfl
    · simp [hqlow k hgt] at hk

theorem firstPressed_eq_none {s : State} (h : ∀ k, s.keyAt k = false) : firstPressed s = none := by
  cases hq : firstPressed s with
  | none => rfl
  | some q =>
    obtain ⟨pressed, _⟩ := firstPressed_some hq
    simp [h q] at pressed

/-- Settles O48: the scan finds the given key, or none. -/
theorem waitKeyTakesTheLowestKeyOrRewinds : Obligations.WaitKeyTakesTheLowestKeyOrRewinds := by
  refine fun x s => ⟨fun k hk hlow => ?_, fun hnone => ?_⟩
  · obtain ⟨value, others, frame⟩ := writeV_result s x (BitVec.ofNat 8 k.val)
    refine ⟨_, exec_waitKey_of_some (firstPressed_eq_some hk hlow), ?_, others, frame⟩
    have := k.isLt
    rw [value, BitVec.toNat_ofNat]
    omega
  · exact ⟨_, exec_waitKey_of_none (firstPressed_eq_none hnone), rfl, sameExcept_writePc s _⟩

/-- Settles O49: each is one write of its own part. -/
theorem timerMoves : Obligations.TimerMoves := fun x s =>
  ⟨⟨_, rfl, writeV_result s x s.DT⟩, ⟨_, rfl, rfl, sameExcept_writeDT s _⟩, _, rfl, rfl, sameExcept_writeST s _⟩

end Sys2Proof.Machine
end
